-- ==== Sys2Proof/Word.lean ====
section
/-! DEFINITION. The word types of the CORE (spec/00_scope.md R12, R16): every quantity is unsigned, and bit 0 is the least
significant bit of a value. The conventions that put bytes together into words stand in Machine/Operands.lean. -/

namespace Sys2Proof

/-- `u8` of R12. -/
abbrev Byte := BitVec 8

/-- `u16` of R12: a round word, a key word. -/
abbrev Word16 := BitVec 16

/-- `u32` of R12: a port word, a command word. -/
abbrev Word32 := BitVec 32

/-- `u64` of R12: the value of a key cursor's 64-bit ring (R23). -/
abbrev Ring := BitVec 64

/-- The mode of a command (R16): passed in the command word, never stored (R28). -/
inductive Mode where
  | encrypt
  | decrypt
deriving DecidableEq, Repr

end Sys2Proof
end

