-- ==== Sys2Proof/Syntax.lean ====
section
/-! DEFINITION. The nine commands of spec/30_encoding.md R81, one constructor per row of spec/opcode_table.json. A
constructor carries exactly the fields that its row uses, each at the width R80 gives it: fields that a command does not use
are ignored (R87) and do not appear. -/

namespace Sys2Proof

inductive Instr where
  /-- SBOX, OP 0x1 (R103): `idx` is the table index. -/
  | sbox (idx : BitVec 8)
  /-- KCLOAD, OP 0x2 (R116). -/
  | kcload
  /-- KCDRAW, OP 0x3 (R117): `idx` is the subkey index, of which only the value mod 8 counts (R85). -/
  | kcdraw (mode : Mode) (idx : BitVec 8)
  /-- GFUN, OP 0x4 (R132). -/
  | gfun
  /-- FFUN, OP 0x5 (R147): `rnd` is the round index 0..15 (R84). -/
  | ffun (mode : Mode) (rnd : BitVec 4)
  /-- ROUND, OP 0x6 (R174). -/
  | round (mode : Mode) (rnd : BitVec 4)
  /-- CIPHER, OP 0x7 (R175). -/
  | cipher (mode : Mode)
  /-- HEXDEC, OP 0x8 (R196): `len` is the byte count 0..15, of which 1..8 are legal (R83). -/
  | hexdec (len : BitVec 4)
  /-- HEXENC, OP 0x9 (R197). -/
  | hexenc (len : BitVec 4)
deriving DecidableEq, Repr

end Sys2Proof
end

