-- ==== Sys2Proof/WellFormed.lean ====
section
/-! DEFINITION. Well-formedness. Every `Instr` is well formed by its type: its fields have exactly the widths of the command
word, and every value of a field is legal there (spec/30_encoding.md R82 to R85; a length outside 1..8 is encodable and raises
BadSize when it runs). What can be ill formed is a command as an assembler reads it, whose operands are numbers of any size:
R90 says that the assembler "refuses an operand out of its field's range rather than truncating it". -/

namespace Sys2Proof

/-- One command of the assembler syntax of R90, its operands plain numbers, and the two pseudo-instructions of R91. -/
inductive AsmCommand where
  | sbox (x : Nat)
  | kcload
  | kcdraw (mode : Mode) (j : Nat)
  | gfun
  | ffun (mode : Mode) (r : Nat)
  | round (mode : Mode) (r : Nat)
  | cipher (mode : Mode)
  | hexdec (n : Nat)
  | hexenc (n : Nat)
  /-- Expands to `CIPHER E` (R91). -/
  | encrypt
  /-- Expands to `CIPHER D` (R91). -/
  | decrypt
deriving DecidableEq, Repr

/-- The operand ranges of R90: 0..255 for an index, 0..15 for a round and for a length. -/
def AsmCommand.wellFormed : AsmCommand → Bool
  | .sbox x => decide (x < 256)
  | .kcload => true
  | .kcdraw _ j => decide (j < 256)
  | .gfun => true
  | .ffun _ r => decide (r < 16)
  | .round _ r => decide (r < 16)
  | .cipher _ => true
  | .hexdec n => decide (n < 16)
  | .hexenc n => decide (n < 16)
  | .encrypt => true
  | .decrypt => true

end Sys2Proof
end

