-- ==== Sys2Proof/Decode.lean ====
section
/-! DEFINITION. The command word of spec/30_encoding.md: its fields (R80), the decoder, total on all 2^32 words and refusing
by name (R86, R88, R89), the encoder (R80, R90), and the assembler's encoding with its range check (R90, R91). -/

namespace Sys2Proof

/-- Why a word is no command. Both are BadCommand to the host (R210). -/
inductive DecodeError where
  /-- A bit of RES0 or RES1 is set (R86). -/
  | reservedBit
  /-- OP is 0x0 or 0xA..0xF (R88). -/
  | reservedOpcode
deriving DecidableEq, Repr

/-- OP, bits 3:0. -/
def opField (w : Word32) : BitVec 4 := w.extractLsb' 0 4

/-- MODE, bit 4. -/
def modeField (w : Word32) : BitVec 1 := w.extractLsb' 4 1

/-- RES0, bits 7:5. -/
def res0Field (w : Word32) : BitVec 3 := w.extractLsb' 5 3

/-- LEN, bits 11:8. -/
def lenField (w : Word32) : BitVec 4 := w.extractLsb' 8 4

/-- RND, bits 15:12. -/
def rndField (w : Word32) : BitVec 4 := w.extractLsb' 12 4

/-- IDX, bits 23:16. -/
def idxField (w : Word32) : BitVec 8 := w.extractLsb' 16 8

/-- RES1, bits 31:24. -/
def res1Field (w : Word32) : BitVec 8 := w.extractLsb' 24 8

/-- R16: 0 is Encrypt, 1 is Decrypt. -/
def modeOfBit (b : BitVec 1) : Mode := if b = 0#1 then .encrypt else .decrypt

/-- R16, the other way. -/
def bitOfMode : Mode → BitVec 1
  | .encrypt => 0#1
  | .decrypt => 1#1

/-- The decoder of R89, its three cases in the order R89 gives. -/
def decode (w : Word32) : Except DecodeError Instr :=
  if res1Field w ≠ 0#8 ∨ res0Field w ≠ 0#3 then .error .reservedBit
  else
    match opField w with
    | 0x1#4 => .ok (.sbox (idxField w))
    | 0x2#4 => .ok .kcload
    | 0x3#4 => .ok (.kcdraw (modeOfBit (modeField w)) (idxField w))
    | 0x4#4 => .ok .gfun
    | 0x5#4 => .ok (.ffun (modeOfBit (modeField w)) (rndField w))
    | 0x6#4 => .ok (.round (modeOfBit (modeField w)) (rndField w))
    | 0x7#4 => .ok (.cipher (modeOfBit (modeField w)))
    | 0x8#4 => .ok (.hexdec (lenField w))
    | 0x9#4 => .ok (.hexenc (lenField w))
    | _ => .error .reservedOpcode

/-- A word of R80 from its fields, RES0 and RES1 zero. -/
def commandWord (op : BitVec 4) (mode : BitVec 1) (len rnd : BitVec 4) (idx : BitVec 8) : Word32 :=
  0#8 ++ idx ++ rnd ++ len ++ 0#3 ++ mode ++ op

/-- The encoder: the word R90 gives each command, every unused field 0. -/
def encode : Instr → Word32
  | .sbox x => commandWord 0x1#4 0#1 0#4 0#4 x
  | .kcload => commandWord 0x2#4 0#1 0#4 0#4 0#8
  | .kcdraw m j => commandWord 0x3#4 (bitOfMode m) 0#4 0#4 j
  | .gfun => commandWord 0x4#4 0#1 0#4 0#4 0#8
  | .ffun m r => commandWord 0x5#4 (bitOfMode m) 0#4 r 0#8
  | .round m r => commandWord 0x6#4 (bitOfMode m) 0#4 r 0#8
  | .cipher m => commandWord 0x7#4 (bitOfMode m) 0#4 0#4 0#8
  | .hexdec n => commandWord 0x8#4 0#1 n 0#4 0#8
  | .hexenc n => commandWord 0x9#4 0#1 n 0#4 0#8

/-- The command an assembler line stands for, its operands taken mod their field (only ever used on a well-formed line), the
pseudo-instructions expanded (R91). -/
def AsmCommand.toInstr : AsmCommand → Instr
  | .sbox x => .sbox (BitVec.ofNat 8 x)
  | .kcload => .kcload
  | .kcdraw m j => .kcdraw m (BitVec.ofNat 8 j)
  | .gfun => .gfun
  | .ffun m r => .ffun m (BitVec.ofNat 4 r)
  | .round m r => .round m (BitVec.ofNat 4 r)
  | .cipher m => .cipher m
  | .hexdec n => .hexdec (BitVec.ofNat 4 n)
  | .hexenc n => .hexenc (BitVec.ofNat 4 n)
  | .encrypt => .cipher .encrypt
  | .decrypt => .cipher .decrypt

/-- The assembler of R90 and R91: it refuses an operand out of range. -/
def assemble (c : AsmCommand) : Option Word32 := if c.wellFormed then some (encode c.toInstr) else none

/-- What the decoder reads from the bits of an opcode-table row. A command is one 32-bit word (R80), so the word is `w`'s low
`nbits` bits with zeros above; where more than 32 bits are set there is no such command. Log 9. -/
def decodeTableWord (nbits w : Nat) : Option Instr :=
  if w % 2 ^ nbits < 2 ^ 32 then
    match decode (BitVec.ofNat 32 (w % 2 ^ nbits)) with
    | .ok i => some i
    | .error _ => none
  else none

end Sys2Proof
end

