-- ==== Sys2Proof/Machine/State.lean ====
section
/-! DEFINITION. The state of one CORE instance (spec/10_state.md R20 to R39), the host events that reach its port, what the host
has seen, the reasons a step can stop, and the state after reset (spec/70_reset_and_hazards.md R240). -/

namespace Sys2Proof.Machine

/-- The values of STATUS.CODE (spec/60_exceptions.md R210). Codes 8..15 are never produced (I23), so they are left out. -/
inductive Code where
  | ok
  | badBuffer
  | badSize
  | badChar
  | badKey
  | badSourceBlock
  | badDestBlock
  | badCommand
deriving DecidableEq, Repr

/-- The byte-array registers whose bytes can be unwritten (R39). -/
inductive DataReg where
  | src
  | key
  | dst
  | txt
  | kc
deriving DecidableEq, Repr

/-- Why a step stops with a fault. -/
inductive Fault where
  /-- Raised by a command or a host read that reads byte `byte` of register `reg` while that byte is unwritten: `UnwrittenRead`
  of R39 ("A model must therefore fault, not pick a value"), R215 ("The model stops that run with a fault"), D27 and I15. Safe:
  the hardware returns some value. Log 2. -/
  | unwrittenRead (reg : DataReg) (byte : Nat)
deriving DecidableEq, Repr

/-- What makes a host access inadmissible (spec/20_memory.md R62). -/
inductive AccessDefect where
  /-- "a width other than 32 bits" -/
  | width
  /-- "an offset not a multiple of 4" -/
  | alignment
  /-- "an offset above 0x3C" -/
  | range
deriving DecidableEq, Repr

/-- Why a step is refused. -/
inductive Refusal where
  /-- An instruction without a meaning. No arm of `exec` answers with it. Safe. -/
  | notModelled (mnemonic : String)
  /-- Raised by a host access that R62 does not admit: "A model refuses it: the host agent has no step." Safe. Log 9. -/
  | accessNotAdmitted (defect : AccessDefect)
  /-- Raised by a platform step whose address lies in no instance's port window (R71): no CORE is reached, and the spec says
  nothing of what else a platform holds. Safe. Log 13. -/
  | noInstanceAt (address : Nat)
deriving DecidableEq, Repr

/-- What reaches an instance from outside, one event at a time (R229, R240). -/
inductive HostEvent where
  /-- A read of `width` bits at byte offset `offset` of the port. -/
  | read (width offset : Nat)
  /-- A write of `width` bits of `data` at byte offset `offset` of the port. -/
  | write (width offset : Nat) (data : Word32)
  /-- A reset between commands (R240). -/
  | reset
  /-- A reset that arrives while the command of a CMD write of `word` runs (R240, I18). -/
  | resetDuring (word : Word32)
deriving DecidableEq, Repr

/-- What the host has seen of its own accesses (R250, R219). -/
inductive Observation where
  /-- A read at `offset` returned `word`. -/
  | readValue (offset : Nat) (word : Word32)
  /-- The command word `word` ended with STATUS.CODE `code`. -/
  | commandDone (word : Word32) (code : Code)
deriving DecidableEq, Repr

/-- A register of `n` bytes, each holding a value or unwritten (R39): `none` is the spec's own "unwritten", the hidden state of
R44. -/
abbrev ByteReg (n : Nat) := Vector (Option Byte) n

/-- CTRL (R33), its fields in the order of their bits. The reserved bits are hardwired 0 and hold nothing. -/
structure Ctrl where
  srcV : Bool
  srcLen : BitVec 4
  keyV : Bool
  keyLen : BitVec 4
  dstV : Bool
  txtV : Bool
  txtLen : BitVec 5
  kcV : Bool
deriving DecidableEq, Repr

/-- Four 16-bit words: the key words WK (R25), the round words RWD (R26). -/
structure Words4 where
  w0 : Word16
  w1 : Word16
  w2 : Word16
  w3 : Word16
deriving DecidableEq, Repr

/-- The registers that CIPHER owns while it runs (R24 to R27). -/
structure Engine where
  icur : Ring
  wk : Words4
  rwd : Words4
  rc : BitVec 4
deriving DecidableEq, Repr

/-- The engine registers while their values are unspecified (R24 to R27, R240): free values, the `n`-th use of them. DESIGN
CHOICE, log 4; `n` alone tells them apart, so two instances at the same count hold equal ones (log 13). -/
def Engine.unspecified (n : Nat) : Engine where
  icur := Config.freeIcur n
  wk := ⟨Config.freeWk n 0, Config.freeWk n 1, Config.freeWk n 2, Config.freeWk n 3⟩
  rwd := ⟨Config.freeRwd n 0, Config.freeRwd n 1, Config.freeRwd n 2, Config.freeRwd n 3⟩
  rc := Config.freeRc n

/-- One CORE instance (R20) and, in the last three fields, the model's own bookkeeping. -/
structure State where
  /-- SBOX, the substitution ROM (R21). -/
  sbox : Vector Byte 256
  /-- KC, the component key cursor (R22). -/
  kc : ByteReg 8
  /-- ICUR, WK, RWD, RC (R24 to R27). -/
  engine : Engine
  /-- STATUS.CODE (R32). -/
  status : Code
  /-- CTRL, KC_V included (R33). -/
  ctrl : Ctrl
  /-- SRC (R35). -/
  src : ByteReg 8
  /-- KEY (R36). -/
  key : ByteReg 8
  /-- DST (R37). -/
  dst : ByteReg 8
  /-- TXT (R38). -/
  txt : ByteReg 16
  /-- The number of free values used so far (the model's own, log 4). -/
  freeCount : Nat
  /-- The host events still to reach the port, next first (the model's own, log 7). -/
  pending : List HostEvent
  /-- What the host has seen, newest first (the model's own, log 8). -/
  history : List Observation
deriving DecidableEq, Repr

/-- CTRL after reset (R240): every field 0. -/
def Ctrl.reset : Ctrl where
  srcV := false
  srcLen := 0#4
  keyV := false
  keyLen := 0#4
  dstV := false
  txtV := false
  txtLen := 0#5
  kcV := false

/-- The state of R240 for a machine whose ROM holds `table`. -/
def State.resetWith (table : Vector Byte 256) : State where
  sbox := table
  kc := Vector.replicate 8 none
  engine := Engine.unspecified 0
  status := .ok
  ctrl := Ctrl.reset
  src := Vector.replicate 8 none
  key := Vector.replicate 8 none
  dst := Vector.replicate 8 none
  txt := Vector.replicate 16 none
  freeCount := 1
  pending := []
  history := []

/-- The machine right after reset (R240, R241): its ROM holds FTABLE. -/
def State.reset : State := State.resetWith Config.ftable

end Sys2Proof.Machine
end

