-- ==== Sys2Proof/Machine/Flags.lean ====
section
/-! DEFINITION. STATUS and CTRL: the CORE has no condition codes (spec/10_state.md R42); STATUS.CODE is the only status a
command leaves (R32), and CTRL holds the operand predicates that the commands check (R33, R43). -/

namespace Sys2Proof.Machine

/-- The number of a code (spec/60_exceptions.md R210, D9). -/
def Code.number : Code → BitVec 4
  | .ok => 0
  | .badBuffer => 1
  | .badSize => 2
  | .badChar => 3
  | .badKey => 4
  | .badSourceBlock => 5
  | .badDestBlock => 6
  | .badCommand => 7

/-- STATUS as the host reads it (R32): CODE in bits 3:0, bits 31:4 hardwired 0. -/
def statusWord (c : Code) : Word32 := 0#28 ++ c.number

/-- One bit, from a presence flag. -/
def flagBit (b : Bool) : BitVec 1 := if b then 1#1 else 0#1

/-- CTRL as the host reads it (R33), from bit 31 down: the reserved bits read 0. -/
def Ctrl.word (c : Ctrl) : Word32 :=
  flagBit c.kcV ++ 0#2 ++ c.txtLen ++ 0#6 ++ flagBit c.txtV ++ flagBit c.dstV ++ c.keyLen ++ 0#3 ++ flagBit c.keyV
    ++ c.srcLen ++ 0#3 ++ flagBit c.srcV

/-- CTRL after a host write of `w` (R33): every field but KC_V takes the written bits; KC_V and the reserved bits stay. -/
def Ctrl.write (c : Ctrl) (w : Word32) : Ctrl where
  srcV := w.getLsbD 0
  srcLen := w.extractLsb' 4 4
  keyV := w.getLsbD 8
  keyLen := w.extractLsb' 12 4
  dstV := w.getLsbD 16
  txtV := w.getLsbD 17
  txtLen := w.extractLsb' 24 5
  kcV := c.kcV

/-- `srcOK` of R43. -/
def Ctrl.srcOK (c : Ctrl) : Bool := c.srcV && c.srcLen == 8#4

/-- `keyOK` of R43. -/
def Ctrl.keyOK (c : Ctrl) : Bool := c.keyV && c.keyLen == 8#4

/-- `dstOK` of R43. -/
def Ctrl.dstOK (c : Ctrl) : Bool := c.dstV

/-- `kcOK` of R43. -/
def Ctrl.kcOK (c : Ctrl) : Bool := c.kcV

/-- `srcPresent` of R43. -/
def Ctrl.srcPresent (c : Ctrl) : Bool := c.srcV

/-- `txtPresent` of R43. -/
def Ctrl.txtPresent (c : Ctrl) : Bool := c.txtV

/-- `txtLen := min(CTRL.TXT_LEN, 16)` of R43 (I12). -/
def Ctrl.textLength (c : Ctrl) : Nat := min c.txtLen.toNat 16

/-- The legal codec lengths, 1..8 (R83, R192, R194). -/
def legalLength (n : Nat) : Bool := decide (1 ≤ n) && decide (n ≤ 8)

end Sys2Proof.Machine
end

