-- ==== Sys2Proof/Machine/Operands.lean ====
section
/-! DEFINITION. The operand forms: bytes and 16-bit words (spec/00_scope.md R13, R14, spec/20_memory.md R65), the byte-array
registers with their unwritten bytes (spec/10_state.md R39), the packing of four bytes into a port word (R64), and the
substitution ROM (spec/40_sbox.md R100). -/

namespace Sys2Proof.Machine

/-- `w16(a, b) = a·256 + b`, and `concat` of the source (R13, D14): the first byte is the high one. -/
def w16 (a b : Byte) : Word16 := a ++ b

/-- `hi8(w) = w[15:8]` (R13). -/
def hi8 (w : Word16) : Byte := w.extractLsb' 8 8

/-- `lo8(w) = w[7:0]` (R13). -/
def lo8 (w : Word16) : Byte := w.extractLsb' 0 8

/-- `rotl16(x) = ((x << 1) | x[15]) mod 2^16` (R14). -/
def rotl16 (x : Word16) : Word16 := (x <<< 1) ||| (x >>> 15)

/-- `rotr16(x) = (x >> 1) | (x[0] << 15)` (R14). -/
def rotr16 (x : Word16) : Word16 := (x >>> 1) ||| (x <<< 15)

/-- The four words of eight bytes, high byte first (R65). -/
def wordsOf (b : Vector Byte 8) : Words4 := ⟨w16 b[0] b[1], w16 b[2] b[3], w16 b[4] b[5], w16 b[6] b[7]⟩

/-- The eight bytes of four words, high byte first (R65, R170). -/
def bytesOf (w : Words4) : Vector Byte 8 :=
  #v[hi8 w.w0, lo8 w.w0, hi8 w.w1, lo8 w.w1, hi8 w.w2, lo8 w.w2, hi8 w.w3, lo8 w.w3]

/-- Word-by-word exclusive-or (R163, R169). -/
def xorWords (a b : Words4) : Words4 := ⟨a.w0 ^^^ b.w0, a.w1 ^^^ b.w1, a.w2 ^^^ b.w2, a.w3 ^^^ b.w3⟩

/-- `S(x) = FTABLE[x]`, by direct indexing (R100). Total: every byte is an index (R101). -/
def lookup (table : Vector Byte 256) (x : Byte) : Byte := table[x.toNat]

/-- Byte `i` of a register: `none` where it is unwritten, or where the register has no such byte. -/
def ByteReg.byte {n : Nat} (v : ByteReg n) (i : Nat) : Option Byte := (v[i]?).join

/-- The bytes `base .. base + k - 1` of a register, read in this order: the first unwritten one stops the read and is
named. -/
def ByteReg.readRange {n : Nat} (v : ByteReg n) (base : Nat) : (k : Nat) → Except Nat (Vector Byte k)
  | 0 => .ok #v[]
  | k + 1 =>
    match v.readRange base k with
    | .error i => .error i
    | .ok bs =>
      match v.byte (base + k) with
      | none => .error (base + k)
      | some b => .ok (bs.push b)

/-- The register after bytes `bs` are stored at `base`, `base + 1`, and so on: each becomes written (R39), the others keep
their value. -/
def ByteReg.store {n : Nat} (v : ByteReg n) (base : Nat) (bs : List Byte) : ByteReg n :=
  v.mapIdx fun i old => if base ≤ i ∧ i < base + bs.length then bs[i - base]? else old

/-- `word = B[4j]·2^24 + B[4j+1]·2^16 + B[4j+2]·2^8 + B[4j+3]` (R64). -/
def packWord (b : Vector Byte 4) : Word32 := b[0] ++ b[1] ++ b[2] ++ b[3]

/-- The bytes `word[31-8m : 24-8m]` for m = 0..3 (R64). -/
def unpackWord (w : Word32) : List Byte :=
  [w.extractLsb' 24 8, w.extractLsb' 16 8, w.extractLsb' 8 8, w.extractLsb' 0 8]

end Sys2Proof.Machine
end

