-- ==== Sys2Proof/Machine/Ops.lean ====
section
/-! DEFINITION. The named operations over the state, and the one shared operation that an error takes. The CORE has no traps
(spec/60_exceptions.md R218): its exceptions are errors, whose whole effect is a code in STATUS (R211), and there is no return
from one (R219). -/

namespace Sys2Proof.Machine

/-- What a step answers. -/
abbrev StepResult := Host.Outcome State Fault Refusal

def State.setStatus (s : State) (c : Code) : State := { s with status := c }

def State.setCtrl (s : State) (c : Ctrl) : State := { s with ctrl := c }

def State.setSrc (s : State) (v : ByteReg 8) : State := { s with src := v }

def State.setKey (s : State) (v : ByteReg 8) : State := { s with key := v }

def State.setDst (s : State) (v : ByteReg 8) : State := { s with dst := v }

def State.setTxt (s : State) (v : ByteReg 16) : State := { s with txt := v }

def State.setKc (s : State) (v : ByteReg 8) : State := { s with kc := v }

def State.setPending (s : State) (l : List HostEvent) : State := { s with pending := l }

/-- The host sees one more thing (log 8). -/
def State.observe (s : State) (o : Observation) : State := { s with history := o :: s.history }

/-- The engine registers are discarded: from here on their values are unspecified (R24 to R27), a fresh free value each time
(log 4). -/
def State.discardEngine (s : State) : State :=
  { s with engine := Engine.unspecified s.freeCount, freeCount := s.freeCount + 1 }

/-- One free value has been used for something else. -/
def State.useFree (s : State) : State := { s with freeCount := s.freeCount + 1 }

/-- Reset (R240): every register as after power-on, the ROM as it is (R21); what is still pending at the port and what the
host has seen are the host's and stay (log 5). -/
def State.hardReset (s : State) : State :=
  { State.resetWith s.sbox with
    engine := Engine.unspecified s.freeCount
    freeCount := s.freeCount + 1
    pending := s.pending
    history := s.history }

/-- `raise Error(code)` (R15, R211): STATUS.CODE takes the code and nothing else changes. -/
def raiseError (c : Code) (s : State) : StepResult := .next (s.setStatus c)

/-- A command that has passed all its checks ends with `STATUS.CODE <- 0` (R214). -/
def succeed (s : State) : StepResult := .next (s.setStatus .ok)

/-- The first check that fails, in order (R213). -/
def firstError : List (Code × Bool) → Option Code
  | [] => none
  | (c, passed) :: rest => if passed then firstError rest else some c

/-- A command's checks, in the order of R213, before its effect. -/
def guarded (checks : List (Code × Bool)) (s : State) (effect : StepResult) : StepResult :=
  match firstError checks with
  | some c => raiseError c s
  | none => effect

/-- The bytes `base .. base + k - 1` of register `reg`, whose contents are `v`, or the fault
of R39 at the first unwritten one: "A model must therefore fault, not pick a value" (R215, D27; I15: treatment `fault`). -/
def readBytes {n : Nat} (reg : DataReg) (v : ByteReg n) (base k : Nat) : Except Fault (Vector Byte k) :=
  match v.readRange base k with
  | .error i => .error (.unwrittenRead reg i)
  | .ok bs => .ok bs

/-- Go on with what was read, or stop with its fault. -/
def orFault {α : Type} (r : Except Fault α) (k : α → StepResult) : StepResult :=
  match r with
  | .error f => .fault f
  | .ok a => k a

/-- Bytes `0 ..` of DST take `bs`; the others keep their value (R37). -/
def State.storeDst (s : State) (bs : List Byte) : State := s.setDst (s.dst.store 0 bs)

/-- Byte `i` of a data register, by the register's name: `none` where it is unwritten or there is no such byte. -/
def State.dataByte (s : State) (r : DataReg) (i : Nat) : Option Byte :=
  match r with
  | .src => s.src.byte i
  | .key => s.key.byte i
  | .dst => s.dst.byte i
  | .txt => s.txt.byte i
  | .kc => s.kc.byte i

end Sys2Proof.Machine
end

