-- ==== Sys2Proof/Machine/GFunction.lean ====
section
/-! DEFINITION. gfunction_pipeline: G and the command GFUN (spec/42_gfunction.md). -/

namespace Sys2Proof.Machine

/-- `G(w, k0, k1, k2, k3)` (R130): four stages, each using the result of the one before. A pure function of the word and the
four bytes (R131, C1). -/
def gFunction (table : Vector Byte 256) (w : Word16) (k0 k1 k2 k3 : Byte) : Word16 :=
  let h := hi8 w
  let l := lo8 w
  let h1 := lookup table (l ^^^ k0) ^^^ h
  let l1 := lookup table (h1 ^^^ k1) ^^^ l
  let h2 := lookup table (l1 ^^^ k2) ^^^ h1
  let l2 := lookup table (h2 ^^^ k3) ^^^ l1
  w16 h2 l2

/-- GFUN (R132): G of SRC[0..1] under the keys SRC[2..5], into DST[0..1]. -/
def execGfun (s : State) : StepResult :=
  guarded [(.badSourceBlock, s.ctrl.srcOK), (.badDestBlock, s.ctrl.dstOK)] s <|
    orFault (readBytes .src s.src 0 6) fun b =>
      let g := gFunction s.sbox (w16 b[0] b[1]) b[2] b[3] b[4] b[5]
      succeed (s.storeDst [hi8 g, lo8 g])

end Sys2Proof.Machine
end

