-- ==== Sys2Proof/Machine/KeyCursor.lean ====
section
/-! DEFINITION. key_cursor_rotator: the ring, the draw, and the commands KCLOAD and KCDRAW (spec/41_key_cursor.md). -/

namespace Sys2Proof.Machine

/-- The ring order of this spec (R11, D13), which decides it. UNVERIFIED for the repository, and unsafe if its order differs: log 10. -/
def kcRingOrder : RingOrder := .msbFirst

/-- `ring(C)` of the cursor's bytes (R23, R66): MsbFirst puts byte 0 at the top; LsbFirst is the alternative of R111. -/
def ringOf (o : RingOrder) (b : Vector Byte 8) : Ring :=
  match o with
  | .msbFirst => b[0] ++ b[1] ++ b[2] ++ b[3] ++ b[4] ++ b[5] ++ b[6] ++ b[7]
  | .lsbFirst => b[7] ++ b[6] ++ b[5] ++ b[4] ++ b[3] ++ b[2] ++ b[1] ++ b[0]

/-- Byte `j mod 8` of the cursor whose ring value is `v` (R66). -/
def ringByte (o : RingOrder) (v : Ring) (j : Nat) : Byte :=
  match o with
  | .msbFirst => v.extractLsb' (56 - 8 * (j % 8)) 8
  | .lsbFirst => v.extractLsb' (8 * (j % 8)) 8

/-- The cursor's bytes 0..7, from its ring value. -/
def ringBytes (o : RingOrder) (v : Ring) : List Byte :=
  [ringByte o v 0, ringByte o v 1, ringByte o v 2, ringByte o v 3,
    ringByte o v 4, ringByte o v 5, ringByte o v 6, ringByte o v 7]

/-- `rotl64(v) = ((v << 1) | v[63]) mod 2^64` (R111). -/
def rotl64 (v : Ring) : Ring := (v <<< 1) ||| (v >>> 63)

/-- `rotr64(v) = (v >> 1) | (v[0] << 63)` (R111). -/
def rotr64 (v : Ring) : Ring := (v >>> 1) ||| (v <<< 63)

/-- `draw(j, mode)` on a cursor (R112, R113): the byte returned, and the cursor after. Encrypt rotates, then reads; Decrypt
reads, then rotates. -/
def draw (o : RingOrder) (v : Ring) (j : Nat) : Mode → Byte × Ring
  | .encrypt => (ringByte o (rotl64 v) j, rotl64 v)
  | .decrypt => (ringByte o v j, rotr64 v)

/-- KC's ring value, or the fault of R39 on an unwritten byte. -/
def readCursor (s : State) : Except Fault Ring :=
  match readBytes .kc s.kc 0 8 with
  | .error f => .error f
  | .ok c => .ok (ringOf kcRingOrder c)

/-- KC takes the bytes of ring value `v`. -/
def State.storeCursor (s : State) (v : Ring) : State := s.setKc (s.kc.store 0 (ringBytes kcRingOrder v))

/-- KCLOAD (R116): KC takes KEY, and KC_V is set. -/
def execKcload (s : State) : StepResult :=
  guarded [(.badKey, s.ctrl.keyOK)] s <|
    orFault (readBytes .key s.key 0 8) fun k =>
      succeed ((s.setKc (s.kc.store 0 k.toList)).setCtrl { s.ctrl with kcV := true })

/-- KCDRAW (R117): one draw from KC into DST[0]. -/
def execKcdraw (mode : Mode) (idx : BitVec 8) (s : State) : StepResult :=
  guarded [(.badKey, s.ctrl.kcOK), (.badDestBlock, s.ctrl.dstOK)] s <|
    orFault (readCursor s) fun v =>
      let d := draw kcRingOrder v idx.toNat mode
      succeed ((s.storeCursor d.2).storeDst [d.1])

end Sys2Proof.Machine
end

