-- ==== Sys2Proof/Machine/FFunction.lean ====
section
/-! DEFINITION. ffunction_mixer: F with its subkey draw order, and the command FFUN (spec/43_ffunction.md). -/

namespace Sys2Proof.Machine

/-- Four subkey bytes: one of the arrays `g1keys`, `g2keys`, `fkeys` of R141. -/
structure Quad where
  k0 : Byte
  k1 : Byte
  k2 : Byte
  k3 : Byte
deriving DecidableEq, Repr

/-- The twelve subkey bytes of one F evaluation. -/
structure Subkeys where
  g1 : Quad
  g2 : Quad
  f : Quad
deriving DecidableEq, Repr

/-- The key-schedule round (R140). -/
def kround (round : Nat) : Mode → Nat
  | .encrypt => round
  | .decrypt => 15 - round

/-- Four Encrypt draws, `i = 0, 1, 2, 3` (one line of R141). -/
def drawUp (o : RingOrder) (base : Nat) (v : Ring) : Quad × Ring :=
  let d0 := draw o v base .encrypt
  let d1 := draw o d0.2 (base + 1) .encrypt
  let d2 := draw o d1.2 (base + 2) .encrypt
  let d3 := draw o d2.2 (base + 3) .encrypt
  (⟨d0.1, d1.1, d2.1, d3.1⟩, d3.2)

/-- Four Decrypt draws, `i = 3, 2, 1, 0` (one line of R142). -/
def drawDown (o : RingOrder) (base : Nat) (v : Ring) : Quad × Ring :=
  let d3 := draw o v (base + 3) .decrypt
  let d2 := draw o d3.2 (base + 2) .decrypt
  let d1 := draw o d2.2 (base + 1) .decrypt
  let d0 := draw o d1.2 base .decrypt
  (⟨d0.1, d1.1, d2.1, d3.1⟩, d0.2)

/-- The twelve draws of one F evaluation, in the order of R141 (Encrypt: g1keys, g2keys, fkeys) or R142 (Decrypt: fkeys,
g2keys, g1keys). -/
def drawSubkeys (o : RingOrder) (kr : Nat) (v : Ring) : Mode → Subkeys × Ring
  | .encrypt =>
    let a := drawUp o (4 * kr) v
    let b := drawUp o (4 * kr) a.2
    let c := drawUp o (4 * kr) b.2
    (⟨a.1, b.1, c.1⟩, c.2)
  | .decrypt =>
    let c := drawDown o (4 * kr) v
    let b := drawDown o (4 * kr) c.2
    let a := drawDown o (4 * kr) b.2
    (⟨a.1, b.1, c.1⟩, a.2)

/-- `(a + b + c) mod 65536`, the sum formed exactly first (R144, R145). -/
def sum16 (a b c : Nat) : Word16 := BitVec.ofNat 16 (a + b + c)

/-- The two G evaluations and the combination (R143, R144), from the drawn subkeys. -/
def mix (table : Vector Byte 256) (r0 r1 : Word16) (k : Subkeys) : Word16 × Word16 :=
  let t0 := gFunction table r0 k.g1.k0 k.g1.k1 k.g1.k2 k.g1.k3
  let t1 := gFunction table r1 k.g2.k0 k.g2.k1 k.g2.k2 k.g2.k3
  (sum16 t0.toNat (2 * t1.toNat) (w16 k.f.k0 k.f.k1).toNat, sum16 (2 * t0.toNat) t1.toNat (w16 k.f.k2 k.f.k3).toNat)

/-- `F(r0, r1, round, mode)` on the cursor `v` (R140 to R144): the pair of words, and the cursor after its 12 draws. -/
def fFunction (o : RingOrder) (table : Vector Byte 256) (r0 r1 : Word16) (round : Nat) (mode : Mode) (v : Ring) :
    (Word16 × Word16) × Ring :=
  let d := drawSubkeys o (kround round mode) v mode
  (mix table r0 r1 d.1, d.2)

/-- FFUN (R147): F of SRC[0..3] on KC, into DST[0..3]. -/
def execFfun (mode : Mode) (rnd : BitVec 4) (s : State) : StepResult :=
  guarded [(.badSourceBlock, s.ctrl.srcOK), (.badKey, s.ctrl.kcOK), (.badDestBlock, s.ctrl.dstOK)] s <|
    orFault (readBytes .src s.src 0 4) fun b =>
      orFault (readCursor s) fun v =>
        let r := fFunction kcRingOrder s.sbox (w16 b[0] b[1]) (w16 b[2] b[3]) rnd.toNat mode v
        succeed ((s.storeCursor r.2).storeDst [hi8 r.1.1, lo8 r.1.1, hi8 r.1.2, lo8 r.1.2])

end Sys2Proof.Machine
end

