-- ==== Sys2Proof/Machine/Feistel.lean ====
section
/-! DEFINITION. feistel_16round_engine: the round, the cipher, and the commands ROUND and CIPHER (spec/44_feistel_engine.md). -/

namespace Sys2Proof.Machine

/-- The half of a round that follows F: the new words and the swap (R164, R165, R166). -/
def combineRound (r : Words4) (f0 f1 : Word16) : Mode → Words4
  | .encrypt => ⟨rotr16 (r.w2 ^^^ f0), rotl16 r.w3 ^^^ f1, r.w0, r.w1⟩
  | .decrypt => ⟨rotl16 r.w2 ^^^ f0, rotr16 (r.w3 ^^^ f1), r.w0, r.w1⟩

/-- One round (R164 in Encrypt mode, R165 in Decrypt mode) on the cursor `v`: the new round words and the cursor after. -/
def roundStep (o : RingOrder) (table : Vector Byte 256) (mode : Mode) (round : Nat) (r : Words4) (v : Ring) : Words4 × Ring :=
  let f := fFunction o table r.w0 r.w1 round mode v
  (combineRound r f.1.1 f.1.2 mode, f.2)

/-- Steps 1 to 3 (R161, R162, R163): ICUR takes the key, WK its words, RWD the whitened block, RC is 0. -/
def cipherStart (o : RingOrder) (block key : Vector Byte 8) : Engine where
  icur := ringOf o key
  wk := wordsOf key
  rwd := xorWords (wordsOf block) (wordsOf key)
  rc := 0#4

/-- One turn of the round loop (R167): RC is the round index. -/
def cipherRound (o : RingOrder) (table : Vector Byte 256) (mode : Mode) (e : Engine) (round : Nat) : Engine :=
  let r := roundStep o table mode round e.rwd e.icur
  { e with rwd := r.1, icur := r.2, rc := BitVec.ofNat 4 round }

/-- Step 4 (R167): the rounds 0, 1, ..., 15 in that order, in either mode. -/
def cipherRounds (o : RingOrder) (table : Vector Byte 256) (mode : Mode) (e : Engine) : Engine :=
  (List.range 16).foldl (cipherRound o table mode) e

/-- Step 5 (R168, C2): `y <- (R2, R3, R0, R1)`. -/
def unswap (r : Words4) : Words4 := ⟨r.w2, r.w3, r.w0, r.w1⟩

/-- Steps 5 to 7 (R168, R169, R170): un-swap, whitening with the snapshot WK, serialization. -/
def cipherFinish (e : Engine) : Vector Byte 8 := bytesOf (xorWords (unswap e.rwd) e.wk)

/-- `cipher(P, K, mode)` (R160). -/
def cipher (o : RingOrder) (table : Vector Byte 256) (mode : Mode) (block key : Vector Byte 8) : Vector Byte 8 :=
  cipherFinish (cipherRounds o table mode (cipherStart o block key))

/-- ROUND (R174): one round of the words of SRC on KC, into DST. -/
def execRound (mode : Mode) (rnd : BitVec 4) (s : State) : StepResult :=
  guarded [(.badSourceBlock, s.ctrl.srcOK), (.badKey, s.ctrl.kcOK), (.badDestBlock, s.ctrl.dstOK)] s <|
    orFault (readBytes .src s.src 0 8) fun b =>
      orFault (readCursor s) fun v =>
        let r := roundStep kcRingOrder s.sbox mode rnd.toNat (wordsOf b) v
        succeed ((s.storeCursor r.2).storeDst (bytesOf r.1).toList)

/-- CIPHER (R175): the block of SRC under the key of KEY, into DST. It runs on ICUR, WK, RWD and RC, which it rewrites before
use and whose values are unspecified again when it ends (R24 to R27); KC is not touched (R176). -/
def execCipher (mode : Mode) (s : State) : StepResult :=
  guarded [(.badSourceBlock, s.ctrl.srcOK), (.badKey, s.ctrl.keyOK), (.badDestBlock, s.ctrl.dstOK)] s <|
    orFault (readBytes .src s.src 0 8) fun p =>
      orFault (readBytes .key s.key 0 8) fun k =>
        succeed (s.discardEngine.storeDst (cipher kcRingOrder s.sbox mode p k).toList)

end Sys2Proof.Machine
end

