-- ==== Sys2Proof/Machine/HexCodec.lean ====
section
/-! DEFINITION. hex_codec: the digits, and the commands HEXDEC and HEXENC (spec/45_hex_codec.md). -/

namespace Sys2Proof.Machine

/-- `hexval(c)` of R190, or `none` where `isHex(c)` does not hold: 22 code points, ASCII (PRESUMED, log 11). -/
def hexval (c : Byte) : Option (BitVec 4) :=
  let n := c.toNat
  if 0x30 ≤ n ∧ n ≤ 0x39 then some (BitVec.ofNat 4 (n - 0x30))
  else if 0x41 ≤ n ∧ n ≤ 0x46 then some (BitVec.ofNat 4 (n - 0x41 + 10))
  else if 0x61 ≤ n ∧ n ≤ 0x66 then some (BitVec.ofNat 4 (n - 0x61 + 10))
  else none

/-- `HEXU[v]` of R190: the uppercase digit. -/
def hexu (v : BitVec 4) : Byte :=
  if v.toNat ≤ 9 then BitVec.ofNat 8 (0x30 + v.toNat) else BitVec.ofNat 8 (0x41 + (v.toNat - 10))

/-- How HEXDEC's scan ends. -/
inductive ScanResult where
  | digits (ds : List (BitVec 4))
  | badChar
  | unwritten (position : Nat)
deriving DecidableEq, Repr

/-- HEXDEC's scan (R196) of the `count` positions from `position` on, in position order. At each: a position at or after the
text's end is BadChar, then an unwritten character is the fault of R39, then a character that is no digit is BadChar. -/
def scanDigits (txt : ByteReg 16) (textLength : Nat) : (count position : Nat) → ScanResult
  | 0, _ => .digits []
  | count + 1, position =>
    if textLength ≤ position then .badChar
    else
      match txt.byte position with
      | none => .unwritten position
      | some c =>
        match hexval c with
        | none => .badChar
        | some d =>
          match scanDigits txt textLength count (position + 1) with
          | .digits ds => .digits (d :: ds)
          | .badChar => .badChar
          | .unwritten p => .unwritten p

/-- Each pair of digits is one byte, the first the high nibble (R191, D15). -/
def pairDigits : List (BitVec 4) → List Byte
  | h :: l :: rest => (h ++ l) :: pairDigits rest
  | [_] => []
  | [] => []

/-- Each byte is two uppercase digits, the high nibble first (R193). -/
def hexText : List Byte → List Byte
  | [] => []
  | b :: bs => hexu (b.extractLsb' 4 4) :: hexu (b.extractLsb' 0 4) :: hexText bs

/-- HEXDEC (R196): the first 2n characters of TXT, as n bytes, into DST[0..n-1]. A scanned character that is unwritten
is the fault R196 names: "if unwritten(TXT[c]): model fault UnwrittenRead" (R39, R215). -/
def execHexdec (len : BitVec 4) (s : State) : StepResult :=
  guarded [(.badSize, legalLength len.toNat), (.badBuffer, s.ctrl.txtPresent && s.ctrl.dstOK)] s <|
    match scanDigits s.txt s.ctrl.textLength (2 * len.toNat) 0 with
    | .badChar => raiseError .badChar s
    | .unwritten p => .fault (.unwrittenRead .txt p)
    | .digits ds => succeed (s.storeDst (pairDigits ds))

/-- HEXENC (R197): the n bytes SRC[0..n-1] as 2n uppercase digits, into TXT[0..2n-1]; TXT_LEN becomes 2n. -/
def execHexenc (len : BitVec 4) (s : State) : StepResult :=
  guarded [(.badSize, legalLength len.toNat), (.badBuffer, s.ctrl.srcPresent && s.ctrl.txtPresent)] s <|
    orFault (readBytes .src s.src 0 len.toNat) fun b =>
      succeed ((s.setTxt (s.txt.store 0 (hexText b.toList))).setCtrl
        { s.ctrl with txtLen := BitVec.ofNat 5 (2 * len.toNat) })

end Sys2Proof.Machine
end

