-- ==== Sys2Proof/Machine/Sbox.lean ====
section
/-! DEFINITION. substitution_sbox_256: the command SBOX (spec/40_sbox.md). -/

namespace Sys2Proof.Machine

/-- SBOX (R103): DST[0] takes S(IDX). It reads no operand register but CTRL. -/
def execSbox (idx : BitVec 8) (s : State) : StepResult :=
  guarded [(.badDestBlock, s.ctrl.dstOK)] s (succeed (s.storeDst [lookup s.sbox idx]))

end Sys2Proof.Machine
end

