-- ==== Sys2Proof/Machine/Dispatch.lean ====
section
/-! DEFINITION. The dispatch: one arm per command of spec/30_encoding.md R81, each one call of its meaning. -/

namespace Sys2Proof.Machine

def exec (i : Instr) (s : State) : Host.Outcome State Fault Refusal :=
  match i with
  | .sbox idx => Sys2Proof.Machine.execSbox idx s
  | .kcload => Sys2Proof.Machine.execKcload s
  | .kcdraw mode idx => Sys2Proof.Machine.execKcdraw mode idx s
  | .gfun => Sys2Proof.Machine.execGfun s
  | .ffun mode rnd => Sys2Proof.Machine.execFfun mode rnd s
  | .round mode rnd => Sys2Proof.Machine.execRound mode rnd s
  | .cipher mode => Sys2Proof.Machine.execCipher mode s
  | .hexdec len => Sys2Proof.Machine.execHexdec len s
  | .hexenc len => Sys2Proof.Machine.execHexenc len s

end Sys2Proof.Machine
end

