-- ==== Sys2Proof/Machine/Port.lean ====
section
/-! DEFINITION. The host port (spec/20_memory.md R61 to R64, R70, the map of spec/10_state.md R30) and what one host event does
to an instance. -/

namespace Sys2Proof.Machine

/-- What stands at a word offset of the port (R30). A data word is a register and its word number `j` (R64). -/
inductive PortReg where
  | cmd
  | status
  | ctrl
  | src (j : Nat)
  | key (j : Nat)
  | dst (j : Nat)
  | txt (j : Nat)
  | unmapped
deriving DecidableEq, Repr

/-- The register map of R30; 0x0C, 0x28 and 0x2C are unmapped (R63). -/
def portReg (offset : Nat) : PortReg :=
  match offset with
  | 0x00 => .cmd
  | 0x04 => .status
  | 0x08 => .ctrl
  | 0x10 => .src 0
  | 0x14 => .src 1
  | 0x18 => .key 0
  | 0x1C => .key 1
  | 0x20 => .dst 0
  | 0x24 => .dst 1
  | 0x30 => .txt 0
  | 0x34 => .txt 1
  | 0x38 => .txt 2
  | 0x3C => .txt 3
  | _ => .unmapped

/-- Why an access is not admitted, if it is not (R61, R62). Where several reasons apply the first in the order of R62 is named
(log 9). -/
def accessDefect (width offset : Nat) : Option AccessDefect :=
  if width ≠ 32 then some .width
  else if offset % 4 ≠ 0 then some .alignment
  else if 0x3C < offset then some .range
  else none

/-- Word `j` of a byte-array register (R64), or the fault of R39. -/
def readWord {n : Nat} (reg : DataReg) (v : ByteReg n) (j : Nat) : Except Fault Word32 :=
  match readBytes reg v (4 * j) 4 with
  | .error f => .error f
  | .ok b => .ok (packWord b)

/-- What an admitted host read returns (R30 to R38, R63). -/
def portRead (offset : Nat) (s : State) : Except Fault Word32 :=
  match portReg offset with
  | .cmd => .ok 0#32
  | .status => .ok (statusWord s.status)
  | .ctrl => .ok s.ctrl.word
  | .src j => readWord .src s.src j
  | .key j => readWord .key s.key j
  | .dst j => readWord .dst s.dst j
  | .txt j => readWord .txt s.txt j
  | .unmapped => .ok 0#32

/-- A command ends: the host can tell its code (R70, R219). -/
def commandDone (w : Word32) (t : State) : State := t.observe (.commandDone w t.status)

/-- A CMD write issues the command `w` (R31): a word that is no command raises BadCommand (R86, R88), any other runs. -/
def issueCommand (w : Word32) (s : State) : StepResult :=
  match
    (match decode w with
      | .error _ => raiseError .badCommand s
      | .ok i => exec i s) with
  | .next t => .next (commandDone w t)
  | .fault f => .fault f
  | .refused r => .refused r

/-- What an admitted host write does (R30 to R38, R63, R64). -/
def portWrite (offset : Nat) (w : Word32) (s : State) : StepResult :=
  match portReg offset with
  | .cmd => issueCommand w s
  | .status => .next s
  | .ctrl => .next (s.setCtrl (s.ctrl.write w))
  | .src j => .next (s.setSrc (s.src.store (4 * j) (unpackWord w)))
  | .key j => .next (s.setKey (s.key.store (4 * j) (unpackWord w)))
  | .dst _ => .next s
  | .txt j => .next (s.setTxt (s.txt.store (4 * j) (unpackWord w)))
  | .unmapped => .next s

/-- One host read (R61, R62, R69): the host sees the value, and nothing else changes. -/
def hostRead (width offset : Nat) (s : State) : StepResult :=
  match accessDefect width offset with
  | some d => .refused (.accessNotAdmitted d)
  | none => orFault (portRead offset s) fun w => .next (s.observe (.readValue offset w))

/-- One host write (R61, R62). -/
def hostWrite (width offset : Nat) (w : Word32) (s : State) : StepResult :=
  match accessDefect width offset with
  | some d => .refused (.accessNotAdmitted d)
  | none => portWrite offset w s

/-- A reset that arrives while the command `w` runs "either follows it or precedes it" (R240): the free choice of log 6. -/
def resetDuring (w : Word32) (s : State) : StepResult :=
  if Config.resetFirst s.freeCount then issueCommand w s.useFree.hardReset
  else
    match issueCommand w s.useFree with
    | .next t => .next t.hardReset
    | .fault f => .fault f
    | .refused r => .refused r

/-- One event at the port. -/
def hostEvent (e : HostEvent) (s : State) : StepResult :=
  match e with
  | .read width offset => hostRead width offset s
  | .write width offset w => hostWrite width offset w s
  | .reset => .next s.hardReset
  | .resetDuring w => resetDuring w s

end Sys2Proof.Machine
end

