-- ==== Sys2Proof/Machine/Step.lean ====
section
/-! DEFINITION. One step: the next host event, if there is one (spec/60_exceptions.md R229). The CORE fetches nothing
(spec/10_state.md R41): a command reaches it as the data of a CMD write (R31). -/

namespace Sys2Proof.Machine

/-- The next pending event reaches the port; without one the CORE holds its state and does nothing (R227, R242). -/
def step (s : State) : Host.Outcome State Fault Refusal :=
  match s.pending with
  | [] => .next s
  | e :: rest => hostEvent e (s.setPending rest)

/-- The command word of `w`'s low `nbits` bits, zeros above, as the next thing the host writes to CMD (log 7). -/
def State.withFetchWord (s : State) (nbits w : Nat) : State :=
  s.setPending (.write 32 0x00 (BitVec.ofNat 32 (w % 2 ^ nbits)) :: s.pending)

end Sys2Proof.Machine
end

