-- ==== Sys2Proof/Machine/Platform.lean ====
section
/-! DEFINITION. A platform of several CORE instances (spec/00_scope.md R10, spec/20_memory.md R71, R74, spec/60_exceptions.md
R224, R229): each instance is a `State` behind a 64-byte window at its `PORT_BASE`, and an access reaches the instance whose
window holds its address. -/

namespace Sys2Proof.Machine

/-- One instance and its `PORT_BASE`, which is its identifier (R224). -/
structure Slot where
  base : Nat
  core : State
deriving DecidableEq, Repr

/-- What reaches the platform, one event at a time. An address is `PORT_BASE + offset` (R71). -/
inductive PlatformEvent where
  | read (width address : Nat)
  | write (width address : Nat) (data : Word32)
  /-- Every instance is reset: "All instances are ready after reset" (R224). -/
  | reset
deriving DecidableEq, Repr

/-- `N_ENGINES` instances and the events still to come, next first. -/
structure Platform where
  slots : List Slot
  pending : List PlatformEvent
deriving DecidableEq, Repr

/-- An address lies in an instance's port window of 64 bytes (R60, R71). -/
def inWindow (s : Slot) (address : Nat) : Bool := decide (s.base ≤ address) && decide (address < s.base + 64)

/-- What a platform event answers, over the list of instances. -/
abbrev SlotsResult := Host.Outcome (List Slot) Fault Refusal

/-- The instance whose window holds `address` takes a step of `access` at the offset; every other instance stays as it is
(R74). Where no window holds it no CORE is reached (log 13). -/
def routeAccess (access : Nat → State → StepResult) (address : Nat) : List Slot → SlotsResult
  | [] => .refused (.noInstanceAt address)
  | sl :: rest =>
    if inWindow sl address then
      match access (address - sl.base) sl.core with
      | .next t => .next (⟨sl.base, t⟩ :: rest)
      | .fault f => .fault f
      | .refused r => .refused r
    else
      match routeAccess access address rest with
      | .next r => .next (sl :: r)
      | .fault f => .fault f
      | .refused r => .refused r

/-- One platform event. -/
def platformEvent (e : PlatformEvent) (slots : List Slot) : SlotsResult :=
  match e with
  | .read width address => routeAccess (fun offset => hostRead width offset) address slots
  | .write width address w => routeAccess (fun offset => hostWrite width offset w) address slots
  | .reset => .next (slots.map fun sl => ⟨sl.base, sl.core.hardReset⟩)

/-- One step of the platform: the next event, or nothing. -/
def platformStep (p : Platform) : Host.Outcome Platform Fault Refusal :=
  match p.pending with
  | [] => .next p
  | e :: rest =>
    match platformEvent e p.slots with
    | .next slots => .next ⟨slots, rest⟩
    | .fault f => .fault f
    | .refused r => .refused r

/-- The platform after reset, an instance at each of the bases: all of them hold the same table (R10, R241). DESIGN CHOICE,
unsafe, log 13: every instance starts at the same count of the same free values (log 4), so the unspecified ICUR, WK, RWD and RC
of different instances (R24 to R27, R240) are equal in the model, where the spec relates them in no way. No rule reads them. -/
def platformReset (bases : List Nat) : Platform := ⟨bases.map fun b => ⟨b, State.reset⟩, []⟩

/-- Two windows do not meet. -/
def windowsApart (a b : Slot) : Prop := a.base + 64 ≤ b.base ∨ b.base + 64 ≤ a.base

/-- At least one instance (R10), no two windows meeting, and one shared table (R10, R21). -/
def platformWf (p : Platform) : Prop :=
  p.slots ≠ [] ∧ p.slots.Pairwise windowsApart ∧ ∃ table, ∀ sl ∈ p.slots, sl.core.sbox = table

end Sys2Proof.Machine
end

