-- ==== Sys2Proof/Safety.lean ====
section
/-! DEFINITION. What a safe run is, in the terms the statements use: a run goes on for as long as no step faults and none is
refused (spec/60_exceptions.md R215, spec/70_reset_and_hazards.md R250). An error code in STATUS is a result and no fault. -/

namespace Sys2Proof.Machine

/-- The step answers a next state. -/
def Completes (r : StepResult) : Prop := ∃ t, r = .next t

/-- The bytes `base .. base + k - 1` of a register hold the values `b`. -/
abbrev Holds {n k : Nat} (v : ByteReg n) (base : Nat) (b : Vector Byte k) : Prop :=
  ∀ i : Fin k, v.byte (base + i) = some b[i]

/-- The bytes below `k` of a register are all written (R39). -/
abbrev Written {n : Nat} (v : ByteReg n) (k : Nat) : Prop := ∀ i, i < k → v.byte i ≠ none

/-- The number of bytes of a data register (R22, R35 to R38). -/
def regSize : DataReg → Nat
  | .src => 8
  | .key => 8
  | .dst => 8
  | .txt => 16
  | .kc => 8

/-- The invariant of a CORE instance: where KC_V says that KC holds a loaded key (R33), every byte of KC is written. -/
abbrev CursorLoaded (s : State) : Prop := s.ctrl.kcV = true → Written s.kc 8

/-- Every byte of a data register that `s` has written is written in `t`. -/
def KeepsWritten (s t : State) : Prop := ∀ r i, s.dataByte r i ≠ none → t.dataByte r i ≠ none

/-- The data words of the port (spec/10_state.md R30): offset, register, word number. -/
def dataWords : List (Nat × DataReg × Nat) :=
  [(0x10, .src, 0), (0x14, .src, 1), (0x18, .key, 0), (0x1C, .key, 1), (0x20, .dst, 0), (0x24, .dst, 1),
    (0x30, .txt, 0), (0x34, .txt, 1), (0x38, .txt, 2), (0x3C, .txt, 3)]

/-- Those of them that the host can write: all but DST (R37). -/
def writableWords : List (Nat × DataReg × Nat) :=
  [(0x10, .src, 0), (0x14, .src, 1), (0x18, .key, 0), (0x1C, .key, 1),
    (0x30, .txt, 0), (0x34, .txt, 1), (0x38, .txt, 2), (0x3C, .txt, 3)]

/-- The table of spec/45_hex_codec.md R190: `c` is the code point of a digit of value `v`. -/
abbrev IsDigit (c : Byte) (v : Nat) : Prop :=
  (0x30 ≤ c.toNat ∧ c.toNat ≤ 0x39 ∧ v = c.toNat - 0x30) ∨
  (0x41 ≤ c.toNat ∧ c.toNat ≤ 0x46 ∧ v = c.toNat - 0x41 + 10) ∨
  (0x61 ≤ c.toNat ∧ c.toNat ≤ 0x66 ∧ v = c.toNat - 0x61 + 10)

/-- An event at the port that is no reset. -/
def HostEvent.isAccess : HostEvent → Bool
  | .read _ _ => true
  | .write _ _ _ => true
  | .reset => false
  | .resetDuring _ => false

/-- `t` is what a run from `s` reaches in some number of steps without a fault or a refusal. -/
def Reaches (s t : State) : Prop := ∃ k, Host.Core.run Sys2Proof.core k s = .next t

end Sys2Proof.Machine
end

