-- ==== Sys2Proof/Certificates/Slice0/Obligations.lean ====
section
/-! DEFINITION. The statements about the CORE, each a proposition for the provers. A docstring names the rules of spec/ it
formalises. `pending` and `history` are the model's own fields (log 7, log 8): what the host still sends and what it has seen. -/

open Sys2Proof Sys2Proof.Machine

/-! ### Encoding (spec/30_encoding.md) -/

/-- R80, R81, R89, R90: the decoder reads back every command the encoder writes, for every value of every field. -/
def Obligations.DecodeInvertsEncode : Prop := ∀ i : Instr, decode (encode i) = .ok i

/-- R80, R81, R82 to R85, R87: every word that matches a row of the opcode table under the mask 0xFF0000EF decodes to that
row's command with the fields the row uses, whatever the unused fields hold. -/
def Obligations.TableWordsDecode : Prop :=
  ∀ w : Word32,
    let mode := if w.getLsbD 4 then Mode.decrypt else Mode.encrypt
    (w &&& 0xFF0000EF#32 = 0x1#32 → decode w = .ok (.sbox ((w >>> 16).setWidth 8))) ∧
    (w &&& 0xFF0000EF#32 = 0x2#32 → decode w = .ok .kcload) ∧
    (w &&& 0xFF0000EF#32 = 0x3#32 → decode w = .ok (.kcdraw mode ((w >>> 16).setWidth 8))) ∧
    (w &&& 0xFF0000EF#32 = 0x4#32 → decode w = .ok .gfun) ∧
    (w &&& 0xFF0000EF#32 = 0x5#32 → decode w = .ok (.ffun mode ((w >>> 12).setWidth 4))) ∧
    (w &&& 0xFF0000EF#32 = 0x6#32 → decode w = .ok (.round mode ((w >>> 12).setWidth 4))) ∧
    (w &&& 0xFF0000EF#32 = 0x7#32 → decode w = .ok (.cipher mode)) ∧
    (w &&& 0xFF0000EF#32 = 0x8#32 → decode w = .ok (.hexdec ((w >>> 8).setWidth 4))) ∧
    (w &&& 0xFF0000EF#32 = 0x9#32 → decode w = .ok (.hexenc ((w >>> 8).setWidth 4)))

/-- R89: the decoder is total, and it refuses exactly the words with a reserved bit set, then those with a reserved opcode. -/
def Obligations.DecoderRefusesReservedOnly : Prop :=
  ∀ w : Word32,
    (decode w = .error .reservedBit ↔ w &&& 0xFF0000E0#32 ≠ 0#32) ∧
    (decode w = .error .reservedOpcode ↔
      w &&& 0xFF0000E0#32 = 0#32 ∧ (w.toNat % 16 = 0 ∨ 10 ≤ w.toNat % 16)) ∧
    ((∃ i, decode w = .ok i) ↔ w &&& 0xFF0000E0#32 = 0#32 ∧ 1 ≤ w.toNat % 16 ∧ w.toNat % 16 ≤ 9)

/-- R87, R90, R91: words the spec writes out, and the commands they are. -/
def Obligations.SpecWordsDecode : Prop :=
  decode 0x00000017#32 = .ok (.cipher .decrypt) ∧ decode 0x00000007#32 = .ok (.cipher .encrypt) ∧
  decode 0x0000F006#32 = .ok (.round .encrypt 15#4) ∧ decode 0x003F0013#32 = .ok (.kcdraw .decrypt 63#8) ∧
  decode 0x00000808#32 = .ok (.hexdec 8#4) ∧ decode 0x00000309#32 = .ok (.hexenc 3#4) ∧
  decode 0x00A50001#32 = .ok (.sbox 0xA5#8) ∧ decode 0x00000004#32 = .ok .gfun ∧
  decode 0x0000F015#32 = .ok (.ffun .decrypt 15#4) ∧ decode 0x00FFF012#32 = .ok .kcload

/-- R90: an operand in its field's range reaches the command unchanged; one out of range is refused, not truncated. -/
def Obligations.AssemblerKeepsOrRefusesOperands : Prop :=
  ∀ x : Nat,
    (x < 256 → ∃ b : BitVec 8, b.toNat = x ∧ (assemble (.sbox x)).map decode = some (.ok (.sbox b)) ∧
      ∀ m, (assemble (.kcdraw m x)).map decode = some (.ok (.kcdraw m b))) ∧
    (256 ≤ x → assemble (.sbox x) = none ∧ ∀ m, assemble (.kcdraw m x) = none) ∧
    (x < 16 → ∃ b : BitVec 4, b.toNat = x ∧ (assemble (.hexdec x)).map decode = some (.ok (.hexdec b)) ∧
      (assemble (.hexenc x)).map decode = some (.ok (.hexenc b)) ∧
      ∀ m, (assemble (.ffun m x)).map decode = some (.ok (.ffun m b)) ∧
        (assemble (.round m x)).map decode = some (.ok (.round m b))) ∧
    (16 ≤ x → assemble (.hexdec x) = none ∧ assemble (.hexenc x) = none ∧
      ∀ m, assemble (.ffun m x) = none ∧ assemble (.round m x) = none)

/-! ### The step and the port (spec/20_memory.md) -/

/-- R31, R70: a CMD write of a word that decodes runs that command, whole, on the state without the event; the host then knows
its code (log 8). -/
def Obligations.StepRunsIssuedCommand : Prop :=
  ∀ (s : State) (w : Word32) (rest : List HostEvent) (i : Instr),
    s.pending = .write 32 0x00 w :: rest → decode w = .ok i →
    step s =
      match exec i { s with pending := rest } with
      | .next t => .next { t with history := .commandDone w t.status :: t.history }
      | .fault f => .fault f
      | .refused r => .refused r

/-- R227, R242: with no event at the port (in the model's list, log 7) the CORE holds its state. -/
def Obligations.IdleCoreHoldsItsState : Prop := ∀ s : State, s.pending = [] → step s = .next s

/-- R61, R62: the port refuses exactly the accesses that are not 32 bits wide at an aligned offset up to 0x3C. -/
def Obligations.PortRefusesInadmissibleAccesses : Prop :=
  ∀ (s : State) (width offset : Nat) (w : Word32) (rest : List HostEvent),
    (s.pending = .read width offset :: rest →
      ((∃ r, step s = .refused r) ↔ ¬ (width = 32 ∧ offset % 4 = 0 ∧ offset ≤ 0x3C))) ∧
    (s.pending = .write width offset w :: rest →
      ((∃ r, step s = .refused r) ↔ ¬ (width = 32 ∧ offset % 4 = 0 ∧ offset ≤ 0x3C)))

/-- R63: at 0x0C, 0x28 and 0x2C a read returns 0 and a write is ignored. -/
def Obligations.UnmappedOffsetsReadZero : Prop :=
  ∀ (s : State) (offset : Nat) (w : Word32) (rest : List HostEvent),
    offset = 0x0C ∨ offset = 0x28 ∨ offset = 0x2C →
    (s.pending = .read 32 offset :: rest →
      step s = .next { s with pending := rest, history := .readValue offset 0#32 :: s.history }) ∧
    (s.pending = .write 32 offset w :: rest → step s = .next { s with pending := rest })

/-- R31, R32, R35 (host writes), R37: CMD reads 0; STATUS reads the code in bits 3:0 under zeros; writes to STATUS and DST are
ignored. -/
def Obligations.ReadOnlyWordsIgnoreWrites : Prop :=
  ∀ (s : State) (w : Word32) (rest : List HostEvent),
    (s.pending = .read 32 0x00 :: rest →
      step s = .next { s with pending := rest, history := .readValue 0x00 0#32 :: s.history }) ∧
    (s.pending = .read 32 0x04 :: rest →
      step s = .next { s with
        pending := rest
        history := .readValue 0x04
          (match s.status with
            | .ok => 0#32 | .badBuffer => 1#32 | .badSize => 2#32 | .badChar => 3#32
            | .badKey => 4#32 | .badSourceBlock => 5#32 | .badDestBlock => 6#32 | .badCommand => 7#32) :: s.history }) ∧
    (s.pending = .write 32 0x04 w :: rest → step s = .next { s with pending := rest }) ∧
    (s.pending = .write 32 0x20 w :: rest → step s = .next { s with pending := rest }) ∧
    (s.pending = .write 32 0x24 w :: rest → step s = .next { s with pending := rest })

/-- R64, the read: a data word holds its four bytes, the lower-numbered in the more significant bits. -/
def Obligations.DataWordReadPacksFourBytes : Prop :=
  ∀ (s : State) (offset : Nat) (r : DataReg) (j : Nat) (b : Vector Byte 4) (rest : List HostEvent),
    (offset, r, j) ∈ dataWords → (∀ m : Fin 4, s.dataByte r (4 * j + m) = some b[m]) →
    s.pending = .read 32 offset :: rest →
    ∃ word : Word32, word.toNat = b[0].toNat * 2 ^ 24 + b[1].toNat * 2 ^ 16 + b[2].toNat * 2 ^ 8 + b[3].toNat ∧
      step s = .next { s with pending := rest, history := .readValue offset word :: s.history }

/-- R64, R39, the write: it stores `word[31-8m : 24-8m]` into byte `4j+m` for m = 0..3, which become written, and changes
nothing else. -/
def Obligations.DataWordWriteStoresFourBytes : Prop :=
  ∀ (s : State) (offset : Nat) (r : DataReg) (j : Nat) (w : Word32) (rest : List HostEvent),
    (offset, r, j) ∈ writableWords → s.pending = .write 32 offset w :: rest →
    ∃ t, step s = .next t ∧
      (∀ m < 4, t.dataByte r (4 * j + m) = some (w.extractLsb' (24 - 8 * m) 8)) ∧
      (∀ r' k, ¬ (r' = r ∧ 4 * j ≤ k ∧ k < 4 * j + 4) → t.dataByte r' k = s.dataByte r' k) ∧
      t.sbox = s.sbox ∧ t.engine = s.engine ∧ t.status = s.status ∧ t.ctrl = s.ctrl ∧ t.freeCount = s.freeCount ∧
      t.pending = rest ∧ t.history = s.history

/-- R33: CTRL's fields stand at their bits and its reserved bits read 0; a host write replaces every field but KC_V. -/
def Obligations.CtrlWriteKeepsCursorValidBit : Prop :=
  (∀ c : Ctrl, c.word.getLsbD 0 = c.srcV ∧ c.word.extractLsb' 4 4 = c.srcLen ∧ c.word.getLsbD 8 = c.keyV ∧
    c.word.extractLsb' 12 4 = c.keyLen ∧ c.word.getLsbD 16 = c.dstV ∧ c.word.getLsbD 17 = c.txtV ∧
    c.word.extractLsb' 24 5 = c.txtLen ∧ c.word.getLsbD 31 = c.kcV ∧ c.word &&& 0x60FC0E0E#32 = 0#32) ∧
  (∀ (s : State) (rest : List HostEvent), s.pending = .read 32 0x08 :: rest →
    step s = .next { s with pending := rest, history := .readValue 0x08 s.ctrl.word :: s.history }) ∧
  (∀ (s : State) (w : Word32) (rest : List HostEvent), s.pending = .write 32 0x08 w :: rest →
    ∃ c : Ctrl, step s = .next { s with pending := rest, ctrl := c } ∧
      c.word = (w &&& 0x1F03F1F1#32) ||| (s.ctrl.word &&& 0x80000000#32))

/-- R39, R215: a host read of a data word with an unwritten byte is the fault UnwrittenRead, naming the register and an
unwritten byte of that word. -/
def Obligations.UnwrittenDataWordReadFaults : Prop :=
  ∀ (s : State) (offset : Nat) (r : DataReg) (j : Nat) (rest : List HostEvent),
    (offset, r, j) ∈ dataWords → (∃ k < 4, s.dataByte r (4 * j + k) = none) → s.pending = .read 32 offset :: rest →
    ∃ k < 4, s.dataByte r (4 * j + k) = none ∧ step s = .fault (.unwrittenRead r (4 * j + k))

/-- R69: a read changes nothing of the instance. -/
def Obligations.PortReadsHaveNoSideEffect : Prop :=
  ∀ (s t : State) (width offset : Nat) (rest : List HostEvent),
    s.pending = .read width offset :: rest → step s = .next t →
    ∃ word, t = { s with pending := rest, history := .readValue offset word :: s.history }

/-- R69: the same write twice in a row, to any word but CMD, leaves what the first left. -/
def Obligations.PortWritesAreIdempotent : Prop :=
  ∀ (s t : State) (offset : Nat) (w : Word32) (rest : List HostEvent),
    offset ≠ 0x00 → s.pending = .write 32 offset w :: .write 32 offset w :: rest → step s = .next t →
    step t = .next { t with pending := rest }

/-! ### Errors (spec/60_exceptions.md) -/

/-- R86: a word with a bit of RES0 or RES1 set raises BadCommand and has no other effect, whatever its OP. -/
def Obligations.ReservedBitsRaiseBadCommand : Prop :=
  ∀ (s : State) (w : Word32) (rest : List HostEvent),
    s.pending = .write 32 0x00 w :: rest → w &&& 0xFF0000E0#32 ≠ 0#32 →
    step s = .next { s with
      pending := rest, status := .badCommand, history := .commandDone w .badCommand :: s.history }

/-- R88: a word with OP 0x0 or 0xA..0xF raises BadCommand and has no other effect. -/
def Obligations.ReservedOpcodesRaiseBadCommand : Prop :=
  ∀ (s : State) (w : Word32) (rest : List HostEvent),
    s.pending = .write 32 0x00 w :: rest → (w.toNat % 16 = 0 ∨ 10 ≤ w.toNat % 16) →
    step s = .next { s with
      pending := rest, status := .badCommand, history := .commandDone w .badCommand :: s.history }

/-- R211: a command that ends with an error code, an illegal word among them, has written STATUS.CODE and nothing else. -/
def Obligations.ErrorsWriteOnlyStatus : Prop :=
  (∀ (i : Instr) (s t : State), exec i s = .next t → t.status ≠ .ok → t = { s with status := t.status }) ∧
  (∀ (s t : State) (w : Word32) (rest : List HostEvent),
    s.pending = .write 32 0x00 w :: rest → step s = .next t → t.status ≠ .ok →
    t = { s with pending := rest, status := t.status, history := .commandDone w t.status :: s.history })

/-- R213, R43: the error each command reports is that of its first failing check, in the order of R213's table, and the command
has no other effect (HEXDEC's BadChar is `HexdecScansInOrder`). -/
def Obligations.ChecksRunInOrder : Prop :=
  ∀ (s : State) (m : Mode) (x : BitVec 8) (r n : BitVec 4),
    let srcOK := s.ctrl.srcV = true ∧ s.ctrl.srcLen = 8#4
    let keyOK := s.ctrl.keyV = true ∧ s.ctrl.keyLen = 8#4
    let legal := 1 ≤ n.toNat ∧ n.toNat ≤ 8
    let errs (i : Instr) (c : Code) := exec i s = .next { s with status := c }
    (s.ctrl.dstV = false → errs (.sbox x) .badDestBlock) ∧
    (¬ keyOK → errs .kcload .badKey) ∧
    (s.ctrl.kcV = false → errs (.kcdraw m x) .badKey) ∧
    (s.ctrl.kcV = true → s.ctrl.dstV = false → errs (.kcdraw m x) .badDestBlock) ∧
    (¬ srcOK → errs .gfun .badSourceBlock ∧ errs (.ffun m r) .badSourceBlock ∧ errs (.round m r) .badSourceBlock ∧
      errs (.cipher m) .badSourceBlock) ∧
    (srcOK → s.ctrl.dstV = false → errs .gfun .badDestBlock) ∧
    (srcOK → s.ctrl.kcV = false → errs (.ffun m r) .badKey ∧ errs (.round m r) .badKey) ∧
    (srcOK → s.ctrl.kcV = true → s.ctrl.dstV = false → errs (.ffun m r) .badDestBlock ∧ errs (.round m r) .badDestBlock) ∧
    (srcOK → ¬ keyOK → errs (.cipher m) .badKey) ∧
    (srcOK → keyOK → s.ctrl.dstV = false → errs (.cipher m) .badDestBlock) ∧
    (¬ legal → errs (.hexdec n) .badSize ∧ errs (.hexenc n) .badSize) ∧
    (legal → (s.ctrl.txtV = false ∨ s.ctrl.dstV = false) → errs (.hexdec n) .badBuffer) ∧
    (legal → (s.ctrl.srcV = false ∨ s.ctrl.txtV = false) → errs (.hexenc n) .badBuffer)

/-- R196, R192, R215: HEXDEC's scan stops at the first position that is not a written hex digit within the text: past the text's
end and at a character that is no digit with BadChar, at an unwritten one with the fault UnwrittenRead. -/
def Obligations.HexdecScansInOrder : Prop :=
  ∀ (s : State) (n : BitVec 4) (c : Nat),
    1 ≤ n.toNat → n.toNat ≤ 8 → s.ctrl.txtV = true → s.ctrl.dstV = true → c < 2 * n.toNat →
    (∀ p < c, p < min s.ctrl.txtLen.toNat 16 ∧ ∃ ch v, s.txt.byte p = some ch ∧ IsDigit ch v) →
    (min s.ctrl.txtLen.toNat 16 ≤ c → exec (.hexdec n) s = .next { s with status := .badChar }) ∧
    (c < min s.ctrl.txtLen.toNat 16 → s.txt.byte c = none → exec (.hexdec n) s = .fault (.unwrittenRead .txt c)) ∧
    (∀ ch, c < min s.ctrl.txtLen.toNat 16 → s.txt.byte c = some ch → (¬ ∃ v, IsDigit ch v) →
      exec (.hexdec n) s = .next { s with status := .badChar })

/-- R39, R215, R228: no command is refused, and a command faults only on a byte that exists and is unwritten; never on one of
DST, which no command reads. -/
def Obligations.CommandsFaultOnlyOnUnwrittenBytes : Prop :=
  ∀ (i : Instr) (s : State),
    (∀ r, exec i s ≠ .refused r) ∧
    (∀ f, exec i s = .fault f → ∃ r k, f = .unwrittenRead r k ∧ r ≠ .dst ∧ k < regSize r ∧ s.dataByte r k = none)

/-- R39, R116, R132, R147, R174, R175, R197: a command whose checks pass and whose operand holds an unwritten byte is the
fault UnwrittenRead, naming the register and such a byte. That CIPHER reads SRC before KEY is the model's choice (log 3). -/
def Obligations.UnwrittenOperandsFault : Prop :=
  ∀ (s : State) (m : Mode) (r n : BitVec 4),
    let srcOK := s.ctrl.srcV = true ∧ s.ctrl.srcLen = 8#4
    let keyOK := s.ctrl.keyV = true ∧ s.ctrl.keyLen = 8#4
    let faults (i : Instr) (reg : DataReg) (k : Nat) :=
      ∃ e < k, s.dataByte reg e = none ∧ exec i s = .fault (.unwrittenRead reg e)
    (keyOK → ¬ Written s.key 8 → faults .kcload .key 8) ∧
    (srcOK → s.ctrl.dstV = true → ¬ Written s.src 6 → faults .gfun .src 6) ∧
    (srcOK → s.ctrl.kcV = true → s.ctrl.dstV = true → ¬ Written s.src 4 → faults (.ffun m r) .src 4) ∧
    (srcOK → s.ctrl.kcV = true → s.ctrl.dstV = true → ¬ Written s.src 8 → faults (.round m r) .src 8) ∧
    (srcOK → keyOK → s.ctrl.dstV = true → ¬ Written s.src 8 → faults (.cipher m) .src 8) ∧
    (srcOK → keyOK → s.ctrl.dstV = true → Written s.src 8 → ¬ Written s.key 8 → faults (.cipher m) .key 8) ∧
    (1 ≤ n.toNat → n.toNat ≤ 8 → s.ctrl.srcV = true → s.ctrl.txtV = true → ¬ Written s.src n.toNat →
      faults (.hexenc n) .src n.toNat)

/-- R212, R214: with every byte of every register written, every command ends, with a result or an error code. -/
def Obligations.CommandsCompleteOnWrittenRegisters : Prop :=
  ∀ (i : Instr) (s : State),
    Written s.src 8 → Written s.key 8 → Written s.txt 16 → Written s.kc 8 → ∃ t, exec i s = .next t

/-- R42: no command's behaviour depends on STATUS. -/
def Obligations.StatusNeverInfluencesCommands : Prop :=
  ∀ (i : Instr) (s : State) (c : Code), exec i { s with status := c } = exec i s

/-! ### Reset (spec/70_reset_and_hazards.md) -/

/-- R240, R241: what reset leaves: the table, no error, CTRL all 0, every data byte unwritten. -/
def Obligations.ResetValues : Prop :=
  State.reset.sbox = Config.ftable ∧ State.reset.status = .ok ∧ State.reset.ctrl.word = 0#32 ∧
  ∀ r i, State.reset.dataByte r i = none

/-- R242: right after reset every command ends with an error code and changes nothing else. -/
def Obligations.EveryCommandErrsAfterReset : Prop :=
  ∀ i : Instr, ∃ c ∈ [Code.badSourceBlock, .badKey, .badDestBlock, .badSize, .badBuffer],
    exec i State.reset = .next { State.reset with status := c }

/-- R240, R21: a reset event leaves the reset values and the table; one that arrives during a command falls after it or before
it (which one, a free value: log 6). That pending events and the history stay is the model's choice (log 5). -/
def Obligations.ResetTakesEffectBetweenCommands : Prop :=
  (∀ (s : State) (rest : List HostEvent), s.pending = .reset :: rest →
    ∃ t, step s = .next t ∧ t.sbox = s.sbox ∧ t.status = .ok ∧ t.ctrl.word = 0#32 ∧ (∀ r i, t.dataByte r i = none) ∧
      t.pending = rest ∧ t.history = s.history) ∧
  (∀ (s t : State) (w : Word32) (rest : List HostEvent), s.pending = .resetDuring w :: rest → step s = .next t →
    let u : State := { s with pending := rest, freeCount := s.freeCount + 1 }
    (∃ v, issueCommand w u = .next v ∧ t = v.hardReset) ∨ issueCommand w u.hardReset = .next t)

/-! ### What each command does -/

/-- R103, R100: SBOX puts FTABLE[x] into DST[0]. -/
def Obligations.SboxStoresTableEntry : Prop :=
  ∀ (s : State) (x : BitVec 8), s.ctrl.dstV = true →
    exec (.sbox x) s = .next { s with dst := s.dst.set 0 (some s.sbox[x.toNat]), status := .ok }

/-- R116: KCLOAD copies KEY into KC and sets KC_V. -/
def Obligations.KcloadCopiesKey : Prop :=
  ∀ (s : State) (k : Vector Byte 8), s.ctrl.keyV = true → s.ctrl.keyLen = 8#4 → Holds s.key 0 k →
    exec .kcload s = .next { s with kc := k.map some, ctrl := { s.ctrl with kcV := true }, status := .ok }

/-- R112, R113, R117, with the rotation in bytes of R111: KCDRAW in Encrypt mode rotates KC left by one bit and then reads byte
`j mod 8`; in Decrypt mode it reads and then rotates right. -/
def Obligations.KcdrawRotatesAndReads : Prop :=
  ∀ (s : State) (j : BitVec 8) (cur : Vector Byte 8), s.ctrl.kcV = true → s.ctrl.dstV = true → Holds s.kc 0 cur →
    let left : Vector Byte 8 :=
      Vector.ofFn fun i : Fin 8 => (cur[i] <<< 1) ||| (cur[(i.val + 1) % 8]'(Nat.mod_lt _ (by decide)) >>> 7)
    let right : Vector Byte 8 :=
      Vector.ofFn fun i : Fin 8 => (cur[i] >>> 1) ||| (cur[(i.val + 7) % 8]'(Nat.mod_lt _ (by decide)) <<< 7)
    let at8 (v : Vector Byte 8) : Byte := v[j.toNat % 8]'(Nat.mod_lt _ (by decide))
    exec (.kcdraw .encrypt j) s = .next { s with kc := left.map some, dst := s.dst.set 0 (some (at8 left)), status := .ok } ∧
    exec (.kcdraw .decrypt j) s = .next { s with kc := right.map some, dst := s.dst.set 0 (some (at8 cur)), status := .ok }

/-- R130, R132: GFUN puts the four-stage chain of SRC[0..1] under SRC[2..5] into DST[0..1]. -/
def Obligations.GfunComputesChain : Prop :=
  ∀ (s : State) (b : Vector Byte 6), s.ctrl.srcV = true → s.ctrl.srcLen = 8#4 → s.ctrl.dstV = true → Holds s.src 0 b →
    let S (x : Byte) : Byte := s.sbox[x.toNat]
    let h := b[0]
    let l := b[1]
    let h1 := S (l ^^^ b[2]) ^^^ h
    let l1 := S (h1 ^^^ b[3]) ^^^ l
    let h2 := S (l1 ^^^ b[4]) ^^^ h1
    let l2 := S (h2 ^^^ b[5]) ^^^ l1
    exec .gfun s = .next { s with dst := (s.dst.set 0 (some h2)).set 1 (some l2), status := .ok }

/-- R140, R143, R144, R147: FFUN evaluates G twice under the drawn keys, forms the two sums mod 65536 and leaves KC rotated by
its twelve draws (`SubkeysAreDrawnInOrder`). -/
def Obligations.FfunMixesTwoGOutputs : Prop :=
  ∀ (s : State) (m : Mode) (rnd : BitVec 4) (b : Vector Byte 4) (c : Vector Byte 8),
    s.ctrl.srcV = true → s.ctrl.srcLen = 8#4 → s.ctrl.kcV = true → s.ctrl.dstV = true → Holds s.src 0 b → Holds s.kc 0 c →
    let kr := match m with
      | .encrypt => rnd.toNat
      | .decrypt => 15 - rnd.toNat
    let d := drawSubkeys .msbFirst kr (ringOf .msbFirst c) m
    let t0 := (gFunction s.sbox (b[0] ++ b[1]) d.1.g1.k0 d.1.g1.k1 d.1.g1.k2 d.1.g1.k3).toNat
    let t1 := (gFunction s.sbox (b[2] ++ b[3]) d.1.g2.k0 d.1.g2.k1 d.1.g2.k2 d.1.g2.k3).toNat
    let f0 := (t0 + 2 * t1 + (d.1.f.k0.toNat * 256 + d.1.f.k1.toNat)) % 65536
    let f1 := (2 * t0 + t1 + (d.1.f.k2.toNat * 256 + d.1.f.k3.toNat)) % 65536
    ∃ t, exec (.ffun m rnd) s = .next t ∧ t = { s with kc := t.kc, dst := t.dst, status := .ok } ∧
      Holds t.dst 0 #v[BitVec.ofNat 8 (f0 / 256), BitVec.ofNat 8 f0, BitVec.ofNat 8 (f1 / 256), BitVec.ofNat 8 f1] ∧
      (∀ i, 4 ≤ i → t.dst.byte i = s.dst.byte i) ∧
      (∃ c' : Vector Byte 8, Holds t.kc 0 c' ∧ ringOf .msbFirst c' = d.2)

/-- R164, R165, R166, R174: ROUND computes the new half with F and the mode's rotations, and moves the old half down. -/
def Obligations.RoundComputesNewHalf : Prop :=
  ∀ (s : State) (m : Mode) (rnd : BitVec 4) (b c : Vector Byte 8),
    s.ctrl.srcV = true → s.ctrl.srcLen = 8#4 → s.ctrl.kcV = true → s.ctrl.dstV = true → Holds s.src 0 b → Holds s.kc 0 c →
    let r0 : Word16 := b[0] ++ b[1]
    let r1 : Word16 := b[2] ++ b[3]
    let r2 : Word16 := b[4] ++ b[5]
    let r3 : Word16 := b[6] ++ b[7]
    let f := fFunction .msbFirst s.sbox r0 r1 rnd.toNat m (ringOf .msbFirst c)
    let n0 := match m with
      | .encrypt => (r2 ^^^ f.1.1).rotateRight 1
      | .decrypt => r2.rotateLeft 1 ^^^ f.1.1
    let n1 := match m with
      | .encrypt => r3.rotateLeft 1 ^^^ f.1.2
      | .decrypt => (r3 ^^^ f.1.2).rotateRight 1
    ∃ t, exec (.round m rnd) s = .next t ∧ t = { s with kc := t.kc, dst := t.dst, status := .ok } ∧
      Holds t.dst 0 #v[hi8 n0, lo8 n0, hi8 n1, lo8 n1, b[0], b[1], b[2], b[3]] ∧
      (∃ c' : Vector Byte 8, Holds t.kc 0 c' ∧ ringOf .msbFirst c' = f.2)

/-- R161, R162, R163, R168, R169, R170, R175: CIPHER whitens the block with the key words, runs the rounds
(`CipherRunsSixteenRounds`) on a cursor loaded with the key, un-swaps, whitens with the same words and writes eight bytes, high
byte first. The engine registers are unspecified afterwards (log 4). -/
def Obligations.CipherWritesWhitenedRounds : Prop :=
  ∀ (s : State) (m : Mode) (p k : Vector Byte 8),
    s.ctrl.srcV = true → s.ctrl.srcLen = 8#4 → s.ctrl.keyV = true → s.ctrl.keyLen = 8#4 → s.ctrl.dstV = true →
    Holds s.src 0 p → Holds s.key 0 k →
    let k0 : Word16 := k[0] ++ k[1]
    let k1 : Word16 := k[2] ++ k[3]
    let k2 : Word16 := k[4] ++ k[5]
    let k3 : Word16 := k[6] ++ k[7]
    let start : Engine :=
      { icur := ringOf .msbFirst k
        wk := ⟨k0, k1, k2, k3⟩
        rwd := ⟨(p[0] ++ p[1]) ^^^ k0, (p[2] ++ p[3]) ^^^ k1, (p[4] ++ p[5]) ^^^ k2, (p[6] ++ p[7]) ^^^ k3⟩
        rc := 0#4 }
    let r := (cipherRounds .msbFirst s.sbox m start).rwd
    let y0 := r.w2 ^^^ k0
    let y1 := r.w3 ^^^ k1
    let y2 := r.w0 ^^^ k2
    let y3 := r.w1 ^^^ k3
    ∃ t, exec (.cipher m) s = .next t ∧
      t = { s with dst := t.dst, engine := t.engine, freeCount := t.freeCount, status := .ok } ∧
      Holds t.dst 0 #v[hi8 y0, lo8 y0, hi8 y1, lo8 y1, hi8 y2, lo8 y2, hi8 y3, lo8 y3]

/-- R191, R196: HEXDEC turns the first 2n characters, hex digits all, into n bytes, the first of a pair the high nibble. -/
def Obligations.HexdecStoresDigitPairs : Prop :=
  ∀ (s : State) (n : BitVec 4) (v : Nat → Nat),
    1 ≤ n.toNat → n.toNat ≤ 8 → s.ctrl.txtV = true → s.ctrl.dstV = true → 2 * n.toNat ≤ min s.ctrl.txtLen.toNat 16 →
    (∀ c < 2 * n.toNat, ∃ ch, s.txt.byte c = some ch ∧ IsDigit ch (v c)) →
    ∃ t, exec (.hexdec n) s = .next t ∧ t = { s with dst := t.dst, status := .ok } ∧
      (∀ j < n.toNat, t.dst.byte j = some (BitVec.ofNat 8 (v (2 * j) * 16 + v (2 * j + 1)))) ∧
      (∀ j, n.toNat ≤ j → t.dst.byte j = s.dst.byte j)

/-- R193, R190, R197: HEXENC writes each of n bytes as two uppercase digits, high nibble first, and TXT_LEN becomes 2n; SRC_LEN
plays no part. -/
def Obligations.HexencWritesUppercaseDigits : Prop :=
  ∀ (s : State) (n : BitVec 4) (b : Nat → Byte),
    1 ≤ n.toNat → n.toNat ≤ 8 → s.ctrl.srcV = true → s.ctrl.txtV = true → (∀ j < n.toNat, s.src.byte j = some (b j)) →
    let digit (v : Nat) : Byte := BitVec.ofNat 8 (if v ≤ 9 then 0x30 + v else 0x41 + (v - 10))
    ∃ t, exec (.hexenc n) s = .next t ∧
      t = { s with txt := t.txt, ctrl := { s.ctrl with txtLen := BitVec.ofNat 5 (2 * n.toNat) }, status := .ok } ∧
      (∀ j < n.toNat, t.txt.byte (2 * j) = some (digit ((b j).toNat / 16)) ∧
        t.txt.byte (2 * j + 1) = some (digit ((b j).toNat % 16))) ∧
      (∀ i, 2 * n.toNat ≤ i → t.txt.byte i = s.txt.byte i)

/-! ### The key cursor (spec/41_key_cursor.md, spec/43_ffunction.md) -/

/-- R111: the rotations of the ring, as numbers, and in the cursor's bytes under both ring orders. -/
def Obligations.RotationsActOnCursorBytes : Prop :=
  (∀ v : Ring, (rotl64 v).toNat = (2 * v.toNat) % 2 ^ 64 + v.toNat / 2 ^ 63 ∧
    (rotr64 v).toNat = v.toNat / 2 + (v.toNat % 2) * 2 ^ 63) ∧
  ∀ (cur : Vector Byte 8) (i : Fin 8),
    let at8 (k : Nat) : Byte := cur[k % 8]'(Nat.mod_lt _ (by decide))
    ringByte .msbFirst (rotl64 (ringOf .msbFirst cur)) i = (at8 i <<< 1) ||| (at8 (i + 1) >>> 7) ∧
    ringByte .msbFirst (rotr64 (ringOf .msbFirst cur)) i = (at8 i >>> 1) ||| ((at8 (i + 7) &&& 1#8) <<< 7) ∧
    ringByte .lsbFirst (rotl64 (ringOf .lsbFirst cur)) i = (at8 i <<< 1) ||| (at8 (i + 7) >>> 7) ∧
    ringByte .lsbFirst (rotr64 (ringOf .lsbFirst cur)) i = (at8 i >>> 1) ||| ((at8 (i + 1) &&& 1#8) <<< 7)

/-- R115 (a) to (e): where draws leave the cursor and what they return. -/
def Obligations.DrawLaws : Prop :=
  ∀ (o : RingOrder) (v : Ring) (j : Nat),
    (∀ n, (fun u => (draw o u j .encrypt).2)^[n] v = rotl64^[n] v ∧
      (draw o (rotl64^[n] v) j .encrypt).1 = ringByte o (rotl64^[n + 1] v) j) ∧
    (∀ n, (fun u => (draw o u j .decrypt).2)^[n] v = rotr64^[n] v ∧
      (draw o (rotr64^[n] v) j .decrypt).1 = ringByte o (rotr64^[n] v) j) ∧
    draw o (draw o v j .encrypt).2 j .decrypt = ((draw o v j .encrypt).1, v) ∧
    rotl64^[64] v = v ∧ rotr64^[64] v = v ∧ rotl64^[192] v = v ∧ rotr64^[192] v = v ∧
    (∀ m, draw o 0#64 j m = (0x00#8, 0#64) ∧ draw o (BitVec.allOnes 64) j m = (0xFF#8, BitVec.allOnes 64))

/-- R141, R142, R146: the twelve draws of F, each byte from the cursor as the draws before it left it. -/
def Obligations.SubkeysAreDrawnInOrder : Prop :=
  ∀ (o : RingOrder) (kr : Nat) (v : Ring),
    let E (n i : Nat) : Byte := ringByte o (rotl64^[n] v) (4 * kr + i)
    let D (n i : Nat) : Byte := ringByte o (rotr64^[n] v) (4 * kr + i)
    drawSubkeys o kr v .encrypt =
      (⟨⟨E 1 0, E 2 1, E 3 2, E 4 3⟩, ⟨E 5 0, E 6 1, E 7 2, E 8 3⟩, ⟨E 9 0, E 10 1, E 11 2, E 12 3⟩⟩, rotl64^[12] v) ∧
    drawSubkeys o kr v .decrypt =
      (⟨⟨D 11 0, D 10 1, D 9 2, D 8 3⟩, ⟨D 7 0, D 6 1, D 5 2, D 4 3⟩, ⟨D 3 0, D 2 1, D 1 2, D 0 3⟩⟩, rotr64^[12] v)

/-- R142: a Decrypt F draws the same twelve bytes, into the same arrays, as the Encrypt F it undoes, and gives the cursor
back. -/
def Obligations.DecryptDrawsMirrorEncryptDraws : Prop :=
  ∀ (o : RingOrder) (kr : Nat) (v : Ring),
    drawSubkeys o kr (drawSubkeys o kr v .encrypt).2 .decrypt = ((drawSubkeys o kr v .encrypt).1, v) ∧
    drawSubkeys o kr (drawSubkeys o kr v .decrypt).2 .encrypt = ((drawSubkeys o kr v .decrypt).1, v)

/-! ### The engine (spec/44_feistel_engine.md) -/

/-- R167: the rounds 0, 1, ..., 15, each exactly once and in that order, in both modes, each with its twelve draws; RC ends
at 15. -/
def Obligations.CipherRunsSixteenRounds : Prop :=
  ∀ (o : RingOrder) (table : Vector Byte 256) (m : Mode) (e : Engine),
    ∃ R : Nat → Words4 × Ring, R 0 = (e.rwd, e.icur) ∧
      (∀ round < 16, R (round + 1) = roundStep o table m round (R round).1 (R round).2) ∧
      (∀ n ≤ 16, (R n).2 = match m with
        | .encrypt => rotl64^[12 * n] e.icur
        | .decrypt => rotr64^[12 * n] e.icur) ∧
      cipherRounds o table m e = { e with rwd := (R 16).1, icur := (R 16).2, rc := 15#4 }

/-- R171: decryption undoes encryption and encryption undoes decryption, for every table, block and key and either ring
order. -/
def Obligations.CipherRoundTrip : Prop :=
  ∀ (o : RingOrder) (table : Vector Byte 256) (p k : Vector Byte 8),
    cipher o table .decrypt (cipher o table .encrypt p k) k = p ∧
    cipher o table .encrypt (cipher o table .decrypt p k) k = p

/-- R172 (a): the 192 draws of one cipher leave the cursor where it was, in either mode. -/
def Obligations.CipherReturnsItsCursor : Prop :=
  ∀ (o : RingOrder) (table : Vector Byte 256) (m : Mode) (e : Engine), (cipherRounds o table m e).icur = e.icur

/-- R172 (b): the states of decrypting a ciphertext are the encryption's states, halves swapped, in reverse. -/
def Obligations.DecryptionTraceMirrorsEncryption : Prop :=
  ∀ (o : RingOrder) (table : Vector Byte 256) (p k : Vector Byte 8) (n : Nat), n ≤ 16 →
    let E (n : Nat) := ((List.range n).foldl (cipherRound o table .encrypt) (cipherStart o p k)).rwd
    let D (n : Nat) :=
      ((List.range n).foldl (cipherRound o table .decrypt) (cipherStart o (cipher o table .encrypt p k) k)).rwd
    D n = ⟨(E (16 - n)).w2, (E (16 - n)).w3, (E (16 - n)).w0, (E (16 - n)).w1⟩

/-- R176: CIPHER's result depends only on the table, SRC, KEY, MODE and the five CTRL fields its checks read: nothing of KC,
KC_V, TXT_V, TXT_LEN, DST, the engine registers or any earlier command reaches it, and it leaves KC and CTRL alone. -/
def Obligations.CipherResultsAreIndependent : Prop :=
  ∀ (s s' t : State) (m : Mode),
    s'.sbox = s.sbox → s'.src = s.src → s'.key = s.key →
    s'.ctrl.srcV = s.ctrl.srcV → s'.ctrl.srcLen = s.ctrl.srcLen → s'.ctrl.keyV = s.ctrl.keyV →
    s'.ctrl.keyLen = s.ctrl.keyLen → s'.ctrl.dstV = s.ctrl.dstV → exec (.cipher m) s = .next t →
    ∃ t', exec (.cipher m) s' = .next t' ∧ t'.status = t.status ∧ t'.kc = s'.kc ∧ t'.ctrl = s'.ctrl ∧
      (t.status = .ok → t'.dst = t.dst)

/-- R195, R196, R197: HEXENC n and then HEXDEC n give the n bytes back. -/
def Obligations.HexRoundTrip : Prop :=
  ∀ (s : State) (n : BitVec 4) (b : Nat → Byte),
    1 ≤ n.toNat → n.toNat ≤ 8 → s.ctrl.srcV = true → s.ctrl.txtV = true → s.ctrl.dstV = true →
    (∀ j < n.toNat, s.src.byte j = some (b j)) →
    ∃ t u, exec (.hexenc n) s = .next t ∧ exec (.hexdec n) t = .next u ∧ u.status = .ok ∧
      ∀ j < n.toNat, u.dst.byte j = some (b j)

/-! ### Frames: what a command leaves unchanged whenever it answers a next state -/

/-- R37, R103, R132, R196: SBOX, GFUN and HEXDEC write STATUS and, of DST, at most bytes 0, 0..1 and 0..n-1. -/
def Obligations.DstCommandsFrame : Prop :=
  ∀ (s t : State),
    let frame (i : Instr) (k : Nat) := exec i s = .next t →
      t = { s with dst := t.dst, status := t.status } ∧ ∀ j, k ≤ j → t.dst.byte j = s.dst.byte j
    (∀ x, frame (.sbox x) 1) ∧ frame .gfun 2 ∧ (∀ n, frame (.hexdec n) n.toNat)

/-- R37, R117, R147, R174: KCDRAW, FFUN and ROUND write STATUS, KC and, of DST, at most byte 0, bytes 0..3 and bytes 0..7. -/
def Obligations.CursorCommandsFrame : Prop :=
  ∀ (s t : State) (m : Mode),
    let frame (i : Instr) (k : Nat) := exec i s = .next t →
      t = { s with kc := t.kc, dst := t.dst, status := t.status } ∧ ∀ j, k ≤ j → t.dst.byte j = s.dst.byte j
    (∀ x, frame (.kcdraw m x) 1) ∧ (∀ r, frame (.ffun m r) 4) ∧ (∀ r, frame (.round m r) 8)

/-- R116, R175, R197: KCLOAD writes KC and KC_V; CIPHER writes DST and its own engine registers; HEXENC writes TXT[0..2n-1] and
TXT_LEN; each of them STATUS, and nothing else. -/
def Obligations.LoadCipherEncodeFrame : Prop :=
  ∀ (s t : State),
    (exec .kcload s = .next t → t = { s with kc := t.kc, ctrl := { s.ctrl with kcV := t.ctrl.kcV }, status := t.status }) ∧
    (∀ m, exec (.cipher m) s = .next t →
      t = { s with dst := t.dst, engine := t.engine, freeCount := t.freeCount, status := t.status }) ∧
    (∀ n, exec (.hexenc n) s = .next t →
      t = { s with txt := t.txt, ctrl := { s.ctrl with txtLen := t.ctrl.txtLen }, status := t.status } ∧
      ∀ j, 2 * n.toNat ≤ j → t.txt.byte j = s.txt.byte j)

/-- R34: KCLOAD sets KC_V and HEXENC sets TXT_LEN to 2n, on success; no command writes another CTRL field; only reset clears
KC_V. -/
def Obligations.CommandsWriteTwoCtrlFieldsOnly : Prop :=
  (∀ (i : Instr) (s t : State), exec i s = .next t →
    t.ctrl = { s.ctrl with kcV := t.ctrl.kcV, txtLen := t.ctrl.txtLen } ∧
    (s.ctrl.kcV = true → t.ctrl.kcV = true) ∧
    (i = .kcload → t.status = .ok → t.ctrl.kcV = true) ∧
    (i ≠ .kcload → t.ctrl.kcV = s.ctrl.kcV) ∧
    (∀ n, i = .hexenc n → t.status = .ok → t.ctrl.txtLen.toNat = 2 * n.toNat) ∧
    ((∀ n, i ≠ .hexenc n) → t.ctrl.txtLen = s.ctrl.txtLen)) ∧
  (∀ (s t : State) (e : HostEvent) (rest : List HostEvent), s.pending = e :: rest → step s = .next t →
    s.ctrl.kcV = true → t.ctrl.kcV = false → e = .reset ∨ ∃ w, e = .resetDuring w)

/-! ### Invariants of every step -/

/-- R22, R116, R240: where KC_V says that KC is loaded, all of KC is written: every step keeps it. -/
def Obligations.StepKeepsCursorLoaded : Prop :=
  ∀ s t : State, CursorLoaded s → step s = .next t → CursorLoaded t

/-- R240: the invariant of `StepKeepsCursorLoaded` holds after reset. -/
def Obligations.CursorLoadedAtReset : Prop := CursorLoaded State.reset

/-- R21, R101, R241: no command, host access or reset writes the substitution table. -/
def Obligations.StepKeepsSubstitutionTable : Prop := ∀ s t : State, step s = .next t → t.sbox = s.sbox

/-- R39, R211: a byte that is written stays written through every port access; only reset takes a byte's value away. -/
def Obligations.WrittenBytesStayWritten : Prop :=
  ∀ (s t : State) (e : HostEvent) (rest : List HostEvent),
    s.pending = e :: rest → e.isAccess = true → step s = .next t → KeepsWritten s t

/-! ### Several instances (spec/20_memory.md R71, R74). The platform as a list of instances is the model's form (log 13) -/

/-- R74, R71: an access reaches one instance, the one whose window holds its address, as that instance's own access at the
offset, and leaves every other instance as it was. -/
def Obligations.PlatformAccessReachesOneInstance : Prop :=
  ∀ (before after : List Slot) (sl : Slot) (width address : Nat) (w : Word32),
    (before ++ sl :: after).Pairwise windowsApart → sl.base ≤ address → address < sl.base + 64 →
    (∀ t, hostRead width (address - sl.base) sl.core = .next t →
      platformEvent (.read width address) (before ++ sl :: after) = .next (before ++ ⟨sl.base, t⟩ :: after)) ∧
    (∀ t, hostWrite width (address - sl.base) w sl.core = .next t →
      platformEvent (.write width address w) (before ++ sl :: after) = .next (before ++ ⟨sl.base, t⟩ :: after))

/-- R74: two writes to different instances, commands among them, give the same result in either order. -/
def Obligations.PlatformWritesCommute : Prop :=
  ∀ (slots u v : List Slot) (a b : Nat) (wa wb : Word32),
    slots.Pairwise windowsApart →
    (∃ sa ∈ slots, ∃ sb ∈ slots, sa.base ≠ sb.base ∧ sa.base ≤ a ∧ a < sa.base + 64 ∧ sb.base ≤ b ∧ b < sb.base + 64) →
    platformEvent (.write 32 a wa) slots = .next u → platformEvent (.write 32 b wb) u = .next v →
    ∃ u', platformEvent (.write 32 b wb) slots = .next u' ∧ platformEvent (.write 32 a wa) u' = .next v

/-- R10, R21, R224: every platform step, a reset of all instances among them, keeps the number of the instances, the place of
each and its table; so it keeps `platformWf`. That windows do not meet, and that one event resets every instance, is the model's
choice (log 13). -/
def Obligations.PlatformStepKeepsWf : Prop :=
  ∀ p q : Platform, platformWf p → platformStep p = .next q →
    platformWf q ∧ q.slots.map Slot.base = p.slots.map Slot.base ∧
    q.slots.map (fun sl => sl.core.sbox) = p.slots.map (fun sl => sl.core.sbox)
end

