-- ==== Sys2Proof/Laws/State.lean ====
section
/-! SUPPORT. What each named update of the state does to each field: one lemma per field per update, so that no proof unfolds a
record update. -/

namespace Sys2Proof.Machine

variable (s : State)

@[simp] theorem State.setStatus_sbox (c : Code) : (s.setStatus c).sbox = s.sbox := rfl
@[simp] theorem State.setStatus_kc (c : Code) : (s.setStatus c).kc = s.kc := rfl
@[simp] theorem State.setStatus_engine (c : Code) : (s.setStatus c).engine = s.engine := rfl
@[simp] theorem State.setStatus_status (c : Code) : (s.setStatus c).status = c := rfl
@[simp] theorem State.setStatus_ctrl (c : Code) : (s.setStatus c).ctrl = s.ctrl := rfl
@[simp] theorem State.setStatus_src (c : Code) : (s.setStatus c).src = s.src := rfl
@[simp] theorem State.setStatus_key (c : Code) : (s.setStatus c).key = s.key := rfl
@[simp] theorem State.setStatus_dst (c : Code) : (s.setStatus c).dst = s.dst := rfl
@[simp] theorem State.setStatus_txt (c : Code) : (s.setStatus c).txt = s.txt := rfl
@[simp] theorem State.setStatus_freeCount (c : Code) : (s.setStatus c).freeCount = s.freeCount := rfl
@[simp] theorem State.setStatus_pending (c : Code) : (s.setStatus c).pending = s.pending := rfl
@[simp] theorem State.setStatus_history (c : Code) : (s.setStatus c).history = s.history := rfl

@[simp] theorem State.setCtrl_sbox (c : Ctrl) : (s.setCtrl c).sbox = s.sbox := rfl
@[simp] theorem State.setCtrl_kc (c : Ctrl) : (s.setCtrl c).kc = s.kc := rfl
@[simp] theorem State.setCtrl_engine (c : Ctrl) : (s.setCtrl c).engine = s.engine := rfl
@[simp] theorem State.setCtrl_status (c : Ctrl) : (s.setCtrl c).status = s.status := rfl
@[simp] theorem State.setCtrl_ctrl (c : Ctrl) : (s.setCtrl c).ctrl = c := rfl
@[simp] theorem State.setCtrl_src (c : Ctrl) : (s.setCtrl c).src = s.src := rfl
@[simp] theorem State.setCtrl_key (c : Ctrl) : (s.setCtrl c).key = s.key := rfl
@[simp] theorem State.setCtrl_dst (c : Ctrl) : (s.setCtrl c).dst = s.dst := rfl
@[simp] theorem State.setCtrl_txt (c : Ctrl) : (s.setCtrl c).txt = s.txt := rfl
@[simp] theorem State.setCtrl_freeCount (c : Ctrl) : (s.setCtrl c).freeCount = s.freeCount := rfl
@[simp] theorem State.setCtrl_pending (c : Ctrl) : (s.setCtrl c).pending = s.pending := rfl
@[simp] theorem State.setCtrl_history (c : Ctrl) : (s.setCtrl c).history = s.history := rfl

@[simp] theorem State.setSrc_sbox (v : ByteReg 8) : (s.setSrc v).sbox = s.sbox := rfl
@[simp] theorem State.setSrc_kc (v : ByteReg 8) : (s.setSrc v).kc = s.kc := rfl
@[simp] theorem State.setSrc_engine (v : ByteReg 8) : (s.setSrc v).engine = s.engine := rfl
@[simp] theorem State.setSrc_status (v : ByteReg 8) : (s.setSrc v).status = s.status := rfl
@[simp] theorem State.setSrc_ctrl (v : ByteReg 8) : (s.setSrc v).ctrl = s.ctrl := rfl
@[simp] theorem State.setSrc_src (v : ByteReg 8) : (s.setSrc v).src = v := rfl
@[simp] theorem State.setSrc_key (v : ByteReg 8) : (s.setSrc v).key = s.key := rfl
@[simp] theorem State.setSrc_dst (v : ByteReg 8) : (s.setSrc v).dst = s.dst := rfl
@[simp] theorem State.setSrc_txt (v : ByteReg 8) : (s.setSrc v).txt = s.txt := rfl
@[simp] theorem State.setSrc_freeCount (v : ByteReg 8) : (s.setSrc v).freeCount = s.freeCount := rfl
@[simp] theorem State.setSrc_pending (v : ByteReg 8) : (s.setSrc v).pending = s.pending := rfl
@[simp] theorem State.setSrc_history (v : ByteReg 8) : (s.setSrc v).history = s.history := rfl

@[simp] theorem State.setKey_sbox (v : ByteReg 8) : (s.setKey v).sbox = s.sbox := rfl
@[simp] theorem State.setKey_kc (v : ByteReg 8) : (s.setKey v).kc = s.kc := rfl
@[simp] theorem State.setKey_engine (v : ByteReg 8) : (s.setKey v).engine = s.engine := rfl
@[simp] theorem State.setKey_status (v : ByteReg 8) : (s.setKey v).status = s.status := rfl
@[simp] theorem State.setKey_ctrl (v : ByteReg 8) : (s.setKey v).ctrl = s.ctrl := rfl
@[simp] theorem State.setKey_src (v : ByteReg 8) : (s.setKey v).src = s.src := rfl
@[simp] theorem State.setKey_key (v : ByteReg 8) : (s.setKey v).key = v := rfl
@[simp] theorem State.setKey_dst (v : ByteReg 8) : (s.setKey v).dst = s.dst := rfl
@[simp] theorem State.setKey_txt (v : ByteReg 8) : (s.setKey v).txt = s.txt := rfl
@[simp] theorem State.setKey_freeCount (v : ByteReg 8) : (s.setKey v).freeCount = s.freeCount := rfl
@[simp] theorem State.setKey_pending (v : ByteReg 8) : (s.setKey v).pending = s.pending := rfl
@[simp] theorem State.setKey_history (v : ByteReg 8) : (s.setKey v).history = s.history := rfl

@[simp] theorem State.setDst_sbox (v : ByteReg 8) : (s.setDst v).sbox = s.sbox := rfl
@[simp] theorem State.setDst_kc (v : ByteReg 8) : (s.setDst v).kc = s.kc := rfl
@[simp] theorem State.setDst_engine (v : ByteReg 8) : (s.setDst v).engine = s.engine := rfl
@[simp] theorem State.setDst_status (v : ByteReg 8) : (s.setDst v).status = s.status := rfl
@[simp] theorem State.setDst_ctrl (v : ByteReg 8) : (s.setDst v).ctrl = s.ctrl := rfl
@[simp] theorem State.setDst_src (v : ByteReg 8) : (s.setDst v).src = s.src := rfl
@[simp] theorem State.setDst_key (v : ByteReg 8) : (s.setDst v).key = s.key := rfl
@[simp] theorem State.setDst_dst (v : ByteReg 8) : (s.setDst v).dst = v := rfl
@[simp] theorem State.setDst_txt (v : ByteReg 8) : (s.setDst v).txt = s.txt := rfl
@[simp] theorem State.setDst_freeCount (v : ByteReg 8) : (s.setDst v).freeCount = s.freeCount := rfl
@[simp] theorem State.setDst_pending (v : ByteReg 8) : (s.setDst v).pending = s.pending := rfl
@[simp] theorem State.setDst_history (v : ByteReg 8) : (s.setDst v).history = s.history := rfl

@[simp] theorem State.setTxt_sbox (v : ByteReg 16) : (s.setTxt v).sbox = s.sbox := rfl
@[simp] theorem State.setTxt_kc (v : ByteReg 16) : (s.setTxt v).kc = s.kc := rfl
@[simp] theorem State.setTxt_engine (v : ByteReg 16) : (s.setTxt v).engine = s.engine := rfl
@[simp] theorem State.setTxt_status (v : ByteReg 16) : (s.setTxt v).status = s.status := rfl
@[simp] theorem State.setTxt_ctrl (v : ByteReg 16) : (s.setTxt v).ctrl = s.ctrl := rfl
@[simp] theorem State.setTxt_src (v : ByteReg 16) : (s.setTxt v).src = s.src := rfl
@[simp] theorem State.setTxt_key (v : ByteReg 16) : (s.setTxt v).key = s.key := rfl
@[simp] theorem State.setTxt_dst (v : ByteReg 16) : (s.setTxt v).dst = s.dst := rfl
@[simp] theorem State.setTxt_txt (v : ByteReg 16) : (s.setTxt v).txt = v := rfl
@[simp] theorem State.setTxt_freeCount (v : ByteReg 16) : (s.setTxt v).freeCount = s.freeCount := rfl
@[simp] theorem State.setTxt_pending (v : ByteReg 16) : (s.setTxt v).pending = s.pending := rfl
@[simp] theorem State.setTxt_history (v : ByteReg 16) : (s.setTxt v).history = s.history := rfl

@[simp] theorem State.setKc_sbox (v : ByteReg 8) : (s.setKc v).sbox = s.sbox := rfl
@[simp] theorem State.setKc_kc (v : ByteReg 8) : (s.setKc v).kc = v := rfl
@[simp] theorem State.setKc_engine (v : ByteReg 8) : (s.setKc v).engine = s.engine := rfl
@[simp] theorem State.setKc_status (v : ByteReg 8) : (s.setKc v).status = s.status := rfl
@[simp] theorem State.setKc_ctrl (v : ByteReg 8) : (s.setKc v).ctrl = s.ctrl := rfl
@[simp] theorem State.setKc_src (v : ByteReg 8) : (s.setKc v).src = s.src := rfl
@[simp] theorem State.setKc_key (v : ByteReg 8) : (s.setKc v).key = s.key := rfl
@[simp] theorem State.setKc_dst (v : ByteReg 8) : (s.setKc v).dst = s.dst := rfl
@[simp] theorem State.setKc_txt (v : ByteReg 8) : (s.setKc v).txt = s.txt := rfl
@[simp] theorem State.setKc_freeCount (v : ByteReg 8) : (s.setKc v).freeCount = s.freeCount := rfl
@[simp] theorem State.setKc_pending (v : ByteReg 8) : (s.setKc v).pending = s.pending := rfl
@[simp] theorem State.setKc_history (v : ByteReg 8) : (s.setKc v).history = s.history := rfl

@[simp] theorem State.setPending_sbox (l : List HostEvent) : (s.setPending l).sbox = s.sbox := rfl
@[simp] theorem State.setPending_kc (l : List HostEvent) : (s.setPending l).kc = s.kc := rfl
@[simp] theorem State.setPending_engine (l : List HostEvent) : (s.setPending l).engine = s.engine := rfl
@[simp] theorem State.setPending_status (l : List HostEvent) : (s.setPending l).status = s.status := rfl
@[simp] theorem State.setPending_ctrl (l : List HostEvent) : (s.setPending l).ctrl = s.ctrl := rfl
@[simp] theorem State.setPending_src (l : List HostEvent) : (s.setPending l).src = s.src := rfl
@[simp] theorem State.setPending_key (l : List HostEvent) : (s.setPending l).key = s.key := rfl
@[simp] theorem State.setPending_dst (l : List HostEvent) : (s.setPending l).dst = s.dst := rfl
@[simp] theorem State.setPending_txt (l : List HostEvent) : (s.setPending l).txt = s.txt := rfl
@[simp] theorem State.setPending_freeCount (l : List HostEvent) : (s.setPending l).freeCount = s.freeCount := rfl
@[simp] theorem State.setPending_pending (l : List HostEvent) : (s.setPending l).pending = l := rfl
@[simp] theorem State.setPending_history (l : List HostEvent) : (s.setPending l).history = s.history := rfl

@[simp] theorem State.observe_sbox (o : Observation) : (s.observe o).sbox = s.sbox := rfl
@[simp] theorem State.observe_kc (o : Observation) : (s.observe o).kc = s.kc := rfl
@[simp] theorem State.observe_engine (o : Observation) : (s.observe o).engine = s.engine := rfl
@[simp] theorem State.observe_status (o : Observation) : (s.observe o).status = s.status := rfl
@[simp] theorem State.observe_ctrl (o : Observation) : (s.observe o).ctrl = s.ctrl := rfl
@[simp] theorem State.observe_src (o : Observation) : (s.observe o).src = s.src := rfl
@[simp] theorem State.observe_key (o : Observation) : (s.observe o).key = s.key := rfl
@[simp] theorem State.observe_dst (o : Observation) : (s.observe o).dst = s.dst := rfl
@[simp] theorem State.observe_txt (o : Observation) : (s.observe o).txt = s.txt := rfl
@[simp] theorem State.observe_freeCount (o : Observation) : (s.observe o).freeCount = s.freeCount := rfl
@[simp] theorem State.observe_pending (o : Observation) : (s.observe o).pending = s.pending := rfl
@[simp] theorem State.observe_history (o : Observation) : (s.observe o).history = o :: s.history := rfl

@[simp] theorem State.discardEngine_sbox : s.discardEngine.sbox = s.sbox := rfl
@[simp] theorem State.discardEngine_kc : s.discardEngine.kc = s.kc := rfl
@[simp] theorem State.discardEngine_engine : s.discardEngine.engine = Engine.unspecified s.freeCount := rfl
@[simp] theorem State.discardEngine_status : s.discardEngine.status = s.status := rfl
@[simp] theorem State.discardEngine_ctrl : s.discardEngine.ctrl = s.ctrl := rfl
@[simp] theorem State.discardEngine_src : s.discardEngine.src = s.src := rfl
@[simp] theorem State.discardEngine_key : s.discardEngine.key = s.key := rfl
@[simp] theorem State.discardEngine_dst : s.discardEngine.dst = s.dst := rfl
@[simp] theorem State.discardEngine_txt : s.discardEngine.txt = s.txt := rfl
@[simp] theorem State.discardEngine_freeCount : s.discardEngine.freeCount = s.freeCount + 1 := rfl
@[simp] theorem State.discardEngine_pending : s.discardEngine.pending = s.pending := rfl
@[simp] theorem State.discardEngine_history : s.discardEngine.history = s.history := rfl

@[simp] theorem State.useFree_sbox : s.useFree.sbox = s.sbox := rfl
@[simp] theorem State.useFree_kc : s.useFree.kc = s.kc := rfl
@[simp] theorem State.useFree_engine : s.useFree.engine = s.engine := rfl
@[simp] theorem State.useFree_status : s.useFree.status = s.status := rfl
@[simp] theorem State.useFree_ctrl : s.useFree.ctrl = s.ctrl := rfl
@[simp] theorem State.useFree_src : s.useFree.src = s.src := rfl
@[simp] theorem State.useFree_key : s.useFree.key = s.key := rfl
@[simp] theorem State.useFree_dst : s.useFree.dst = s.dst := rfl
@[simp] theorem State.useFree_txt : s.useFree.txt = s.txt := rfl
@[simp] theorem State.useFree_freeCount : s.useFree.freeCount = s.freeCount + 1 := rfl
@[simp] theorem State.useFree_pending : s.useFree.pending = s.pending := rfl
@[simp] theorem State.useFree_history : s.useFree.history = s.history := rfl

@[simp] theorem State.storeDst_sbox (bs : List Byte) : (s.storeDst bs).sbox = s.sbox := rfl
@[simp] theorem State.storeDst_kc (bs : List Byte) : (s.storeDst bs).kc = s.kc := rfl
@[simp] theorem State.storeDst_engine (bs : List Byte) : (s.storeDst bs).engine = s.engine := rfl
@[simp] theorem State.storeDst_status (bs : List Byte) : (s.storeDst bs).status = s.status := rfl
@[simp] theorem State.storeDst_ctrl (bs : List Byte) : (s.storeDst bs).ctrl = s.ctrl := rfl
@[simp] theorem State.storeDst_src (bs : List Byte) : (s.storeDst bs).src = s.src := rfl
@[simp] theorem State.storeDst_key (bs : List Byte) : (s.storeDst bs).key = s.key := rfl
@[simp] theorem State.storeDst_dst (bs : List Byte) : (s.storeDst bs).dst = s.dst.store 0 bs := rfl
@[simp] theorem State.storeDst_txt (bs : List Byte) : (s.storeDst bs).txt = s.txt := rfl
@[simp] theorem State.storeDst_freeCount (bs : List Byte) : (s.storeDst bs).freeCount = s.freeCount := rfl
@[simp] theorem State.storeDst_pending (bs : List Byte) : (s.storeDst bs).pending = s.pending := rfl
@[simp] theorem State.storeDst_history (bs : List Byte) : (s.storeDst bs).history = s.history := rfl

@[simp] theorem State.storeCursor_sbox (v : Ring) : (s.storeCursor v).sbox = s.sbox := rfl
@[simp] theorem State.storeCursor_kc (v : Ring) : (s.storeCursor v).kc = s.kc.store 0 (ringBytes kcRingOrder v) := rfl
@[simp] theorem State.storeCursor_engine (v : Ring) : (s.storeCursor v).engine = s.engine := rfl
@[simp] theorem State.storeCursor_status (v : Ring) : (s.storeCursor v).status = s.status := rfl
@[simp] theorem State.storeCursor_ctrl (v : Ring) : (s.storeCursor v).ctrl = s.ctrl := rfl
@[simp] theorem State.storeCursor_src (v : Ring) : (s.storeCursor v).src = s.src := rfl
@[simp] theorem State.storeCursor_key (v : Ring) : (s.storeCursor v).key = s.key := rfl
@[simp] theorem State.storeCursor_dst (v : Ring) : (s.storeCursor v).dst = s.dst := rfl
@[simp] theorem State.storeCursor_txt (v : Ring) : (s.storeCursor v).txt = s.txt := rfl
@[simp] theorem State.storeCursor_freeCount (v : Ring) : (s.storeCursor v).freeCount = s.freeCount := rfl
@[simp] theorem State.storeCursor_pending (v : Ring) : (s.storeCursor v).pending = s.pending := rfl
@[simp] theorem State.storeCursor_history (v : Ring) : (s.storeCursor v).history = s.history := rfl

@[simp] theorem State.hardReset_sbox : s.hardReset.sbox = s.sbox := rfl
@[simp] theorem State.hardReset_kc : s.hardReset.kc = Vector.replicate 8 none := rfl
@[simp] theorem State.hardReset_engine : s.hardReset.engine = Engine.unspecified s.freeCount := rfl
@[simp] theorem State.hardReset_status : s.hardReset.status = .ok := rfl
@[simp] theorem State.hardReset_ctrl : s.hardReset.ctrl = Ctrl.reset := rfl
@[simp] theorem State.hardReset_src : s.hardReset.src = Vector.replicate 8 none := rfl
@[simp] theorem State.hardReset_key : s.hardReset.key = Vector.replicate 8 none := rfl
@[simp] theorem State.hardReset_dst : s.hardReset.dst = Vector.replicate 8 none := rfl
@[simp] theorem State.hardReset_txt : s.hardReset.txt = Vector.replicate 16 none := rfl
@[simp] theorem State.hardReset_freeCount : s.hardReset.freeCount = s.freeCount + 1 := rfl
@[simp] theorem State.hardReset_pending : s.hardReset.pending = s.pending := rfl
@[simp] theorem State.hardReset_history : s.hardReset.history = s.history := rfl

@[simp] theorem State.withFetchWord_sbox (nbits w : Nat) : (s.withFetchWord nbits w).sbox = s.sbox := rfl
@[simp] theorem State.withFetchWord_kc (nbits w : Nat) : (s.withFetchWord nbits w).kc = s.kc := rfl
@[simp] theorem State.withFetchWord_engine (nbits w : Nat) : (s.withFetchWord nbits w).engine = s.engine := rfl
@[simp] theorem State.withFetchWord_status (nbits w : Nat) : (s.withFetchWord nbits w).status = s.status := rfl
@[simp] theorem State.withFetchWord_ctrl (nbits w : Nat) : (s.withFetchWord nbits w).ctrl = s.ctrl := rfl
@[simp] theorem State.withFetchWord_src (nbits w : Nat) : (s.withFetchWord nbits w).src = s.src := rfl
@[simp] theorem State.withFetchWord_key (nbits w : Nat) : (s.withFetchWord nbits w).key = s.key := rfl
@[simp] theorem State.withFetchWord_dst (nbits w : Nat) : (s.withFetchWord nbits w).dst = s.dst := rfl
@[simp] theorem State.withFetchWord_txt (nbits w : Nat) : (s.withFetchWord nbits w).txt = s.txt := rfl
@[simp] theorem State.withFetchWord_freeCount (nbits w : Nat) : (s.withFetchWord nbits w).freeCount = s.freeCount := rfl
@[simp] theorem State.withFetchWord_pending (nbits w : Nat) : (s.withFetchWord nbits w).pending = .write 32 0x00 (BitVec.ofNat 32 (w % 2 ^ nbits)) :: s.pending := rfl
@[simp] theorem State.withFetchWord_history (nbits w : Nat) : (s.withFetchWord nbits w).history = s.history := rfl

/-- A state is its fields: two states that agree on each are equal. -/
theorem State.ext_fields {s t : State} (h1 : s.sbox = t.sbox) (h2 : s.kc = t.kc) (h3 : s.engine = t.engine)
    (h4 : s.status = t.status) (h5 : s.ctrl = t.ctrl) (h6 : s.src = t.src) (h7 : s.key = t.key) (h8 : s.dst = t.dst)
    (h9 : s.txt = t.txt) (h10 : s.freeCount = t.freeCount) (h11 : s.pending = t.pending) (h12 : s.history = t.history) :
    s = t := by
  cases s; cases t; simp_all

end Sys2Proof.Machine
end

