-- ==== Sys2Proof/Laws/Ops.lean ====
section
/-! SUPPORT. One lemma per shared operation that says everything it can do: reading and storing register bytes, the checks, the
two ways an operation ends. The proofs about instructions cite these and unfold nothing. -/

namespace Sys2Proof.Machine

/-! ### Register bytes -/

theorem ByteReg.byte_eq_some {n : Nat} {v : ByteReg n} {i : Nat} {b : Byte} :
    v.byte i = some b ↔ ∃ h : i < n, v[i] = some b := by
  unfold ByteReg.byte
  by_cases h : i < n <;> simp [h]

/-- Two registers with the same bytes are equal. -/
theorem ByteReg.ext_byte {n : Nat} {v w : ByteReg n} (h : ∀ i, i < n → v.byte i = w.byte i) : v = w := by
  apply Vector.ext
  intro i hi
  have := h i hi
  simpa [ByteReg.byte, hi] using this

/-- Every byte of a register after a store: a stored one, or the old one. -/
theorem ByteReg.byte_store {n : Nat} (bs : List Byte) (v : ByteReg n) (base i : Nat) :
    (v.store base bs).byte i
      = if base ≤ i ∧ i < base + bs.length ∧ i < n then bs[i - base]? else v.byte i := by
  unfold ByteReg.store ByteReg.byte
  by_cases hi : i < n
  · simp [hi]
  · rw [if_neg (by omega)]
    simp [hi]

/-- What a word write leaves of a register: the word's four bytes at `4j`, high byte first, and every other byte (R64). -/
theorem ByteReg.byte_store_word {n : Nat} (v : ByteReg n) (j : Nat) (w : Word32) (h : 4 * j + 4 ≤ n) :
    (∀ m < 4, (v.store (4 * j) (unpackWord w)).byte (4 * j + m) = some (w.extractLsb' (24 - 8 * m) 8)) ∧
    (∀ k, ¬ (4 * j ≤ k ∧ k < 4 * j + 4) → (v.store (4 * j) (unpackWord w)).byte k = v.byte k) := by
  have len : (unpackWord w).length = 4 := rfl
  refine ⟨fun m hm => ?_, fun k hk => ?_⟩
  · rw [ByteReg.byte_store, if_pos ⟨by omega, by omega, by omega⟩, Nat.add_sub_cancel_left]
    interval_cases m <;> rfl
  · rw [ByteReg.byte_store, if_neg (by omega)]

/-- Storing never makes a byte unwritten (R39). -/
theorem ByteReg.byte_store_ne_none {n : Nat} (v : ByteReg n) (base : Nat) (bs : List Byte) (i : Nat) (h : v.byte i ≠ none) :
    (v.store base bs).byte i ≠ none := by
  rw [ByteReg.byte_store]
  split
  · rw [List.getElem?_eq_getElem (by omega)]
    simp
  · exact h

/-- A store from byte 0 on that covers the register leaves exactly the stored bytes. -/
theorem ByteReg.store_all {n : Nat} (v : ByteReg n) (b : Vector Byte n) : v.store 0 b.toList = b.map some := by
  apply ByteReg.ext_byte
  intro i hi
  rw [ByteReg.byte_store, if_pos ⟨by omega, by simpa using hi, hi⟩]
  simp [ByteReg.byte, hi]

/-- Bytes stored from byte 0 on are there afterwards. -/
theorem ByteReg.holds_store {n k : Nat} (v : ByteReg n) (b : Vector Byte k) (h : k ≤ n) : Holds (v.store 0 b.toList) 0 b := by
  intro i
  rw [ByteReg.byte_store, if_pos ⟨by omega, by simp, by omega⟩]
  simp

/-- The bytes past a store from byte 0 on keep their value (R37). -/
theorem ByteReg.byte_store_of_le {n : Nat} (v : ByteReg n) (bs : List Byte) (i : Nat) (h : bs.length ≤ i) :
    (v.store 0 bs).byte i = v.byte i := by
  rw [ByteReg.byte_store, if_neg (by omega)]

/-- Storing the same bytes again changes nothing. -/
theorem ByteReg.store_store {n : Nat} (v : ByteReg n) (base : Nat) (bs : List Byte) :
    (v.store base bs).store base bs = v.store base bs := by
  apply ByteReg.ext_byte
  intro i _
  rw [ByteReg.byte_store, ByteReg.byte_store]
  split <;> rfl

/-- A read of `k` bytes succeeds with exactly the bytes that are there. -/
theorem ByteReg.readRange_eq_ok {n : Nat} {v : ByteReg n} {base : Nat} :
    ∀ {k : Nat} {b : Vector Byte k}, v.readRange base k = .ok b ↔ Holds v base b := by
  intro k
  induction k with
  | zero =>
    intro b
    simp only [ByteReg.readRange, Holds]
    constructor
    · rintro - ⟨i, hi⟩
      omega
    · intro _
      congr 1
      apply Vector.ext
      intro i hi
      omega
  | succ k ih =>
    intro b
    have key : ∀ b' : Vector Byte k, ∀ x : Byte, Holds v base (b'.push x) ↔ Holds v base b' ∧ v.byte (base + k) = some x := by
      intro b' x
      constructor
      · intro h
        refine ⟨fun i => ?_, ?_⟩
        · have := h ⟨i, by omega⟩
          simpa [Vector.getElem_push, i.isLt] using this
        · simpa using h ⟨k, by omega⟩
      · rintro ⟨h, hx⟩ i
        rcases Nat.lt_or_ge i k with hi | hi
        · simpa [Vector.getElem_push, hi] using h ⟨i, hi⟩
        · have : (i : Nat) = k := by omega
          simp [this, hx]
    simp only [ByteReg.readRange]
    cases hr : v.readRange base k with
    | error e =>
      simp only [reduceCtorEq, false_iff]
      intro h
      have : b = b.pop.push b.back := by simp
      rw [this, key] at h
      have := ih.2 h.1
      rw [hr] at this
      cases this
    | ok b' =>
      have hb' := ih.1 hr
      cases hx : v.byte (base + k) with
      | none =>
        simp only [reduceCtorEq, false_iff]
        intro h
        have := h ⟨k, by omega⟩
        simp [hx] at this
      | some x =>
        simp only [Except.ok.injEq]
        constructor
        · rintro rfl
          exact (key b' x).2 ⟨hb', hx⟩
        · intro h
          have hb : b = b.pop.push b.back := by simp
          rw [hb, key] at h
          have h1 : b' = b.pop := Except.ok.inj (hr.symm.trans (ih.2 h.1))
          have h2 : x = b.back := Option.some.inj (hx.symm.trans h.2)
          rw [hb, h1, h2]

/-- A read of `k` bytes fails exactly at the first unwritten one. -/
theorem ByteReg.readRange_eq_error {n : Nat} {v : ByteReg n} {base : Nat} :
    ∀ {k e : Nat}, v.readRange base k = .error e ↔
      base ≤ e ∧ e < base + k ∧ v.byte e = none ∧ ∀ j, base ≤ j → j < e → v.byte j ≠ none := by
  intro k
  induction k with
  | zero =>
    intro e
    simp only [ByteReg.readRange, reduceCtorEq, false_iff]
    omega
  | succ k ih =>
    intro e
    simp only [ByteReg.readRange]
    cases hr : v.readRange base k with
    | error e' =>
      have he' := ih.1 hr
      simp only [Except.error.injEq]
      constructor
      · rintro rfl
        exact ⟨he'.1, by omega, he'.2.2⟩
      · rintro ⟨h1, h2, h3, h4⟩
        rcases Nat.lt_trichotomy e e' with h | h | h
        · exact absurd h3 (he'.2.2.2 e h1 h)
        · exact h.symm
        · exact absurd he'.2.2.1 (h4 e' he'.1 h)
    | ok b =>
      have hb := ByteReg.readRange_eq_ok.1 hr
      cases hx : v.byte (base + k) with
      | none =>
        simp only [Except.error.injEq]
        constructor
        · rintro rfl
          refine ⟨by omega, by omega, hx, fun j h1 h2 => ?_⟩
          have := hb ⟨j - base, by omega⟩
          rw [show base + (j - base) = j by omega] at this
          simp [this]
        · rintro ⟨h1, h2, h3, h4⟩
          rcases Nat.lt_or_ge e (base + k) with h | h
          · have := hb ⟨e - base, by omega⟩
            simp only [show base + (e - base) = e by omega] at this
            simp [h3] at this
          · omega
      | some x =>
        simp only [reduceCtorEq, false_iff]
        rintro ⟨h1, h2, h3, h4⟩
        rcases Nat.lt_or_ge e (base + k) with h | h
        · have := hb ⟨e - base, by omega⟩
          simp only [show base + (e - base) = e by omega] at this
          simp [h3] at this
        · have : e = base + k := by omega
          rw [this, hx] at h3
          cases h3

theorem readBytes_eq_ok {n k : Nat} {r : DataReg} {v : ByteReg n} {base : Nat} {b : Vector Byte k} :
    readBytes r v base k = .ok b ↔ Holds v base b := by
  rw [← ByteReg.readRange_eq_ok, readBytes]
  cases v.readRange base k <;> simp

/-- A failing read names the register and its first unwritten byte. -/
theorem readBytes_eq_error {n k : Nat} {r : DataReg} {v : ByteReg n} {base : Nat} {f : Fault} :
    readBytes r v base k = .error f ↔ ∃ e, f = .unwrittenRead r e ∧ base ≤ e ∧ e < base + k ∧ v.byte e = none
      ∧ ∀ j, base ≤ j → j < e → v.byte j ≠ none := by
  have h := @ByteReg.readRange_eq_error n v base k
  rw [readBytes]
  cases hr : v.readRange base k with
  | ok b =>
    simp only [reduceCtorEq, false_iff]
    rintro ⟨e, -, he⟩
    have := h.2 he
    rw [hr] at this
    cases this
  | error e =>
    have he := h.1 hr
    simp only [Except.error.injEq]
    constructor
    · rintro rfl
      exact ⟨e, rfl, he⟩
    · rintro ⟨e', rfl, he'⟩
      have := h.2 he'
      rw [hr] at this
      rw [Except.error.inj this]

/-- A read either succeeds or names an unwritten byte of its register. -/
theorem readBytes_cases {n : Nat} (r : DataReg) (v : ByteReg n) (base k : Nat) :
    (∃ b : Vector Byte k, readBytes r v base k = .ok b ∧ Holds v base b) ∨
    (∃ e, readBytes r v base k = .error (.unwrittenRead r e) ∧ base ≤ e ∧ e < base + k ∧ v.byte e = none) := by
  cases h : readBytes r v base k with
  | ok b => exact .inl ⟨b, rfl, readBytes_eq_ok.1 h⟩
  | error f =>
    obtain ⟨e, rfl, h1, h2, h3, -⟩ := readBytes_eq_error.1 h
    exact .inr ⟨e, rfl, h1, h2, h3⟩

/-! ### Checks and endings -/

@[simp] theorem firstError_nil : firstError [] = none := rfl

@[simp] theorem firstError_cons (c : Code) (p : Bool) (rest : List (Code × Bool)) :
    firstError ((c, p) :: rest) = if p then firstError rest else some c := rfl

/-- Everything a guarded command can do: end with the code of its first failing check, or run its effect. -/
theorem guarded_cases (checks : List (Code × Bool)) (s : State) (effect : StepResult) :
    (∃ c, firstError checks = some c ∧ guarded checks s effect = .next (s.setStatus c)) ∨
    (firstError checks = none ∧ guarded checks s effect = effect) := by
  unfold guarded
  cases h : firstError checks with
  | some c => exact .inl ⟨c, rfl, rfl⟩
  | none => exact .inr ⟨rfl, rfl⟩

theorem guarded_of_passed {checks : List (Code × Bool)} {s : State} {effect : StepResult} (h : firstError checks = none) :
    guarded checks s effect = effect := by
  simp [guarded, h]

theorem guarded_of_failed {checks : List (Code × Bool)} {s : State} {effect : StepResult} {c : Code}
    (h : firstError checks = some c) : guarded checks s effect = .next (s.setStatus c) := by
  simp [guarded, h, raiseError]

@[simp] theorem orFault_ok {α : Type} (a : α) (k : α → StepResult) : orFault (.ok a) k = k a := rfl

@[simp] theorem orFault_error {α : Type} (f : Fault) (k : α → StepResult) : orFault (.error f) k = .fault f := rfl

theorem orFault_eq_next {α : Type} {r : Except Fault α} {k : α → StepResult} {t : State} :
    orFault r k = .next t ↔ ∃ a, r = .ok a ∧ k a = .next t := by
  cases r <;> simp

theorem orFault_eq_fault {α : Type} {r : Except Fault α} {k : α → StepResult} {f : Fault} :
    orFault r k = .fault f ↔ r = .error f ∨ ∃ a, r = .ok a ∧ k a = .fault f := by
  cases r <;> simp

@[simp] theorem succeed_eq_next {s t : State} : succeed s = .next t ↔ t = s.setStatus .ok := by
  simp [succeed, eq_comm]

@[simp] theorem raiseError_eq_next {c : Code} {s t : State} : raiseError c s = .next t ↔ t = s.setStatus c := by
  simp [raiseError, eq_comm]

end Sys2Proof.Machine
end

