-- ==== Sys2Proof/Laws/Words.lean ====
section
/-! SUPPORT. The small lemmas of the word and ring operations: the numbers they are, and what packing and unpacking, and rotating
one way and the other, give back. -/

namespace Sys2Proof.Machine

/-! ### Byte pairs -/

/-- An appended pair as a number. -/
theorem toNat_append_eq {m n : Nat} (a : BitVec m) (b : BitVec n) : (a ++ b).toNat = a.toNat * 2 ^ n + b.toNat := by
  rw [BitVec.toNat_append, ← Nat.shiftLeft_add_eq_or_of_lt b.isLt, Nat.shiftLeft_eq]

/-- A field of a word as a number. -/
theorem toNat_field {w : Nat} (v : BitVec w) (start len : Nat) :
    (v.extractLsb' start len).toNat = v.toNat / 2 ^ start % 2 ^ len := by
  rw [BitVec.extractLsb'_toNat, Nat.shiftRight_eq_div_pow]

theorem w16_toNat (a b : Byte) : (w16 a b).toNat = a.toNat * 256 + b.toNat := toNat_append_eq a b

theorem hi8_toNat (w : Word16) : (hi8 w).toNat = w.toNat / 256 := by
  have := w.isLt
  rw [hi8, toNat_field]
  omega

theorem lo8_toNat (w : Word16) : (lo8 w).toNat = w.toNat % 256 := by
  rw [lo8, toNat_field]
  omega

@[simp] theorem hi8_w16 (a b : Byte) : hi8 (w16 a b) = a := by
  apply BitVec.eq_of_toNat_eq
  have := b.isLt
  rw [hi8_toNat, w16_toNat]
  omega

@[simp] theorem lo8_w16 (a b : Byte) : lo8 (w16 a b) = b := by
  apply BitVec.eq_of_toNat_eq
  have := b.isLt
  rw [lo8_toNat, w16_toNat]
  omega

@[simp] theorem w16_hi8_lo8 (w : Word16) : w16 (hi8 w) (lo8 w) = w := by
  apply BitVec.eq_of_toNat_eq
  rw [w16_toNat, hi8_toNat, lo8_toNat]
  omega

@[simp] theorem wordsOf_bytesOf (w : Words4) : wordsOf (bytesOf w) = w := by
  simp [wordsOf, bytesOf]

/-! ### Rotations -/

@[simp] theorem rotr16_rotl16 (x : Word16) : rotr16 (rotl16 x) = x := by
  ext i hi
  simp [rotr16, rotl16, hi]
  by_cases h : i = 15 <;> grind

@[simp] theorem rotl16_rotr16 (x : Word16) : rotl16 (rotr16 x) = x := by
  ext i hi
  simp [rotr16, rotl16, hi]
  by_cases h : i = 0 <;> grind

@[simp] theorem rotr64_rotl64 (v : Ring) : rotr64 (rotl64 v) = v := by
  ext i hi
  simp [rotr64, rotl64, hi]
  by_cases h : i = 63 <;> grind

@[simp] theorem rotl64_rotr64 (v : Ring) : rotl64 (rotr64 v) = v := by
  ext i hi
  simp [rotr64, rotl64, hi]
  by_cases h : i = 0 <;> grind

/-! ### The ring and its bytes -/

/-- `ring(C) = Σ C[i]·2^(8(7-i))` (R23). -/
theorem ringOf_msbFirst_toNat (b : Vector Byte 8) :
    (ringOf .msbFirst b).toNat = b[0].toNat * 2 ^ 56 + b[1].toNat * 2 ^ 48 + b[2].toNat * 2 ^ 40 + b[3].toNat * 2 ^ 32
      + b[4].toNat * 2 ^ 24 + b[5].toNat * 2 ^ 16 + b[6].toNat * 2 ^ 8 + b[7].toNat := by
  simp only [ringOf, toNat_append_eq]
  omega

/-- `ring(C) = Σ C[i]·2^(8i)` (R111, the alternative). -/
theorem ringOf_lsbFirst_toNat (b : Vector Byte 8) :
    (ringOf .lsbFirst b).toNat = b[7].toNat * 2 ^ 56 + b[6].toNat * 2 ^ 48 + b[5].toNat * 2 ^ 40 + b[4].toNat * 2 ^ 32
      + b[3].toNat * 2 ^ 24 + b[2].toNat * 2 ^ 16 + b[1].toNat * 2 ^ 8 + b[0].toNat := by
  simp only [ringOf, toNat_append_eq]
  omega

theorem ringByte_msbFirst_toNat (v : Ring) (j : Nat) :
    (ringByte .msbFirst v j).toNat = v.toNat / 2 ^ (56 - 8 * (j % 8)) % 256 := toNat_field v _ 8

theorem ringByte_lsbFirst_toNat (v : Ring) (j : Nat) :
    (ringByte .lsbFirst v j).toNat = v.toNat / 2 ^ (8 * (j % 8)) % 256 := toNat_field v _ 8

/-- Byte `m` of a cursor, out of its ring value. -/
theorem ring_div_eq (b : Vector Byte 8) (m : Nat) (hm : m < 8) :
    (ringOf .msbFirst b).toNat / 2 ^ (56 - 8 * m) % 256 = b[m].toNat ∧
    (ringOf .lsbFirst b).toNat / 2 ^ (8 * m) % 256 = b[m].toNat := by
  have hb (i : Nat) (hi : i < 8) : b[i].toNat < 256 := b[i].isLt
  have h0 := hb 0 (by omega); have h1 := hb 1 (by omega); have h2 := hb 2 (by omega); have h3 := hb 3 (by omega)
  have h4 := hb 4 (by omega); have h5 := hb 5 (by omega); have h6 := hb 6 (by omega); have h7 := hb 7 (by omega)
  rw [ringOf_msbFirst_toNat, ringOf_lsbFirst_toNat]
  interval_cases m <;> simp only [Nat.reducePow, Nat.reduceMul, Nat.reduceSub] <;> omega

/-- The byte that an index selects is the cursor's byte `j mod 8` (R66). -/
theorem ringByte_ringOf (o : RingOrder) (b : Vector Byte 8) (j : Nat) :
    ringByte o (ringOf o b) j = b[j % 8]'(Nat.mod_lt _ (by decide)) := by
  apply BitVec.eq_of_toNat_eq
  have h := ring_div_eq b (j % 8) (Nat.mod_lt _ (by decide))
  cases o with
  | msbFirst => rw [ringByte_msbFirst_toNat, h.1]
  | lsbFirst => rw [ringByte_lsbFirst_toNat, h.2]

/-- Reading back the bytes of a ring value gives the ring value. -/
theorem ringOf_ringBytes (o : RingOrder) (v : Ring) (b : Vector Byte 8) (h : b.toList = ringBytes o v) : ringOf o b = v := by
  have hb (i : Nat) (hi : i < 8) : b[i] = (ringBytes o v)[i]'(by simp [ringBytes, hi]) := by
    simp [← h]
  have hv := v.isLt
  apply BitVec.eq_of_toNat_eq
  cases o with
  | msbFirst =>
    rw [ringOf_msbFirst_toNat, hb 0, hb 1, hb 2, hb 3, hb 4, hb 5, hb 6, hb 7]
    simp only [ringBytes, List.getElem_cons_zero, List.getElem_cons_succ, ringByte_msbFirst_toNat, Nat.reduceMod,
      Nat.reduceMul, Nat.reduceSub, Nat.reducePow]
    omega
  | lsbFirst =>
    rw [ringOf_lsbFirst_toNat, hb 0, hb 1, hb 2, hb 3, hb 4, hb 5, hb 6, hb 7]
    simp only [ringBytes, List.getElem_cons_zero, List.getElem_cons_succ, ringByte_lsbFirst_toNat, Nat.reduceMod,
      Nat.reduceMul, Nat.reducePow]
    omega

/-- Ring bit `n` of a cursor is a bit of one of its bytes (R23). -/
theorem ringOf_msbFirst_bit (b : Vector Byte 8) (n : Nat) (hn : n < 64) :
    (ringOf .msbFirst b).getLsbD n = (b[7 - n / 8]'(by omega)).getLsbD (n % 8) := by
  have h := ringByte_ringOf .msbFirst b (7 - n / 8)
  have h2 : b[(7 - n / 8) % 8]'(Nat.mod_lt _ (by decide)) = b[7 - n / 8]'(by omega) := by congr 1; omega
  rw [h2] at h
  rw [← h, ringByte, BitVec.getLsbD_extractLsb']
  simp only [show n % 8 < 8 by omega, decide_true, Bool.true_and]
  congr 1
  omega

/-- The same under the other ring order (R111). -/
theorem ringOf_lsbFirst_bit (b : Vector Byte 8) (n : Nat) (hn : n < 64) :
    (ringOf .lsbFirst b).getLsbD n = (b[n / 8]'(by omega)).getLsbD (n % 8) := by
  have h := ringByte_ringOf .lsbFirst b (n / 8)
  have h2 : b[(n / 8) % 8]'(Nat.mod_lt _ (by decide)) = b[n / 8]'(by omega) := by congr 1; omega
  rw [h2] at h
  rw [← h, ringByte, BitVec.getLsbD_extractLsb']
  simp only [show n % 8 < 8 by omega, decide_true, Bool.true_and]
  congr 1
  omega

theorem rotl64_bit (v : Ring) (n : Nat) (hn : n < 64) : (rotl64 v).getLsbD n = v.getLsbD ((n + 63) % 64) := by
  interval_cases n <;> simp [rotl64]

theorem rotr64_bit (v : Ring) (n : Nat) (hn : n < 64) : (rotr64 v).getLsbD n = v.getLsbD ((n + 1) % 64) := by
  interval_cases n <;> simp [rotr64]

end Sys2Proof.Machine
end

