-- ==== Sys2Proof/Laws/Encoding.lean ====
section
/-! SUPPORT. The fields of a command word: what the encoder's word holds in each, and how the masks of the opcode table read
them. -/

namespace Sys2Proof

open Sys2Proof.Machine (toNat_append_eq toNat_field)

/-! ### The encoder's word -/

/-- The number of a command word (R80). -/
theorem commandWord_toNat (op : BitVec 4) (mode : BitVec 1) (len rnd : BitVec 4) (idx : BitVec 8) :
    (commandWord op mode len rnd idx).toNat
      = idx.toNat * 65536 + rnd.toNat * 4096 + len.toNat * 256 + mode.toNat * 16 + op.toNat := by
  have := op.isLt; have := mode.isLt; have := len.isLt; have := rnd.isLt; have := idx.isLt
  simp only [commandWord, toNat_append_eq, BitVec.toNat_ofNat]
  omega

variable (op : BitVec 4) (mode : BitVec 1) (len rnd : BitVec 4) (idx : BitVec 8)

@[simp] theorem opField_commandWord : opField (commandWord op mode len rnd idx) = op := by
  apply BitVec.eq_of_toNat_eq
  have := op.isLt
  rw [opField, toNat_field, commandWord_toNat]
  omega

@[simp] theorem modeField_commandWord : modeField (commandWord op mode len rnd idx) = mode := by
  apply BitVec.eq_of_toNat_eq
  have := op.isLt; have := mode.isLt
  rw [modeField, toNat_field, commandWord_toNat]
  omega

@[simp] theorem lenField_commandWord : lenField (commandWord op mode len rnd idx) = len := by
  apply BitVec.eq_of_toNat_eq
  have := op.isLt; have := mode.isLt; have := len.isLt
  rw [lenField, toNat_field, commandWord_toNat]
  omega

@[simp] theorem rndField_commandWord : rndField (commandWord op mode len rnd idx) = rnd := by
  apply BitVec.eq_of_toNat_eq
  have := op.isLt; have := mode.isLt; have := len.isLt; have := rnd.isLt
  rw [rndField, toNat_field, commandWord_toNat]
  omega

@[simp] theorem idxField_commandWord : idxField (commandWord op mode len rnd idx) = idx := by
  apply BitVec.eq_of_toNat_eq
  have := op.isLt; have := mode.isLt; have := len.isLt; have := rnd.isLt; have := idx.isLt
  rw [idxField, toNat_field, commandWord_toNat]
  omega

@[simp] theorem res0Field_commandWord : res0Field (commandWord op mode len rnd idx) = 0#3 := by
  apply BitVec.eq_of_toNat_eq
  have := op.isLt; have := mode.isLt
  rw [res0Field, toNat_field, commandWord_toNat]
  simp only [BitVec.toNat_ofNat]
  omega

@[simp] theorem res1Field_commandWord : res1Field (commandWord op mode len rnd idx) = 0#8 := by
  apply BitVec.eq_of_toNat_eq
  have := op.isLt; have := mode.isLt; have := len.isLt; have := rnd.isLt; have := idx.isLt
  rw [res1Field, toNat_field, commandWord_toNat]
  simp only [BitVec.toNat_ofNat]
  omega

@[simp] theorem modeOfBit_bitOfMode (m : Mode) : modeOfBit (bitOfMode m) = m := by
  cases m <;> rfl

/-! ### Fields under a mask -/

/-- A field whose bits the mask keeps. -/
theorem field_and_of_kept {w : Nat} {v mask : BitVec w} {start len : Nat}
    (h : mask.extractLsb' start len = BitVec.allOnes len) :
    (v &&& mask).extractLsb' start len = v.extractLsb' start len := by
  rw [BitVec.extractLsb'_and, h, BitVec.and_allOnes]

/-- OP as a number. -/
theorem opField_toNat (w : Word32) : (opField w).toNat = w.toNat % 16 := by
  rw [opField, toNat_field]
  omega

/-- The two reserved fields are zero exactly where the word is zero under 0xFF0000E0. -/
theorem reserved_zero_iff (w : Word32) : res1Field w = 0#8 ∧ res0Field w = 0#3 ↔ w &&& 0xFF0000E0#32 = 0#32 := by
  constructor
  · rintro ⟨h1, h0⟩
    apply BitVec.eq_of_getLsbD_eq
    intro i hi
    have g1 (k : Nat) (hk : k < 8) : w.getLsbD (24 + k) = false := by
      have := congrArg (·.getLsbD k) h1
      simpa [res1Field, hk] using this
    have g0 (k : Nat) (hk : k < 3) : w.getLsbD (5 + k) = false := by
      have := congrArg (·.getLsbD k) h0
      simpa [res0Field, hk] using this
    rw [BitVec.getLsbD_and, BitVec.getLsbD_zero]
    rcases (show (5 ≤ i ∧ i < 8) ∨ 24 ≤ i ∨ i < 5 ∨ (8 ≤ i ∧ i < 24) by omega) with h | h | h | h
    · have := g0 (i - 5) (by omega)
      rw [show 5 + (i - 5) = i by omega] at this
      simp [this]
    · have := g1 (i - 24) (by omega)
      rw [show 24 + (i - 24) = i by omega] at this
      simp [this]
    · interval_cases i <;> simp
    · obtain ⟨h, h'⟩ := h
      interval_cases i <;> simp
  · intro h
    refine ⟨?_, ?_⟩
    · rw [res1Field, ← field_and_of_kept (mask := 0xFF0000E0#32) (by decide), h]
      decide
    · rw [res0Field, ← field_and_of_kept (mask := 0xFF0000E0#32) (by decide), h]
      decide

/-- What a word that matches a row of the opcode table (mask 0xFF0000EF) has in its fixed fields. -/
theorem fixed_fields_of_match {w m : Word32} (h : w &&& 0xFF0000EF#32 = m) :
    res1Field w = res1Field m ∧ res0Field w = res0Field m ∧ opField w = opField m := by
  subst h
  refine ⟨?_, ?_, ?_⟩
  · rw [res1Field, res1Field, field_and_of_kept (by decide)]
  · rw [res0Field, res0Field, field_and_of_kept (by decide)]
  · rw [opField, opField, field_and_of_kept (by decide)]

end Sys2Proof
end

