-- ==== Sys2Proof/Laws/Exec.lean ====
section
/-! SUPPORT. One inversion lemma per command: everything its meaning can do. It ends with the code of its first failing check,
or stops on an unwritten byte, or answers the one state of its own effect. -/

namespace Sys2Proof.Machine

/-- KC can be read as a ring exactly where all its bytes are written. -/
theorem readCursor_eq_ok {s : State} {v : Ring} :
    readCursor s = .ok v ↔ ∃ b : Vector Byte 8, Holds s.kc 0 b ∧ v = ringOf kcRingOrder b := by
  unfold readCursor
  rcases readBytes_cases .kc s.kc 0 8 with ⟨b, hb, h⟩ | ⟨e, he, -, h2, h3⟩
  · rw [hb]
    constructor
    · intro h'
      exact ⟨b, h, (Except.ok.inj h').symm⟩
    · rintro ⟨b', h', rfl⟩
      have := hb.symm.trans (readBytes_eq_ok.2 h')
      rw [Except.ok.inj this]
  · rw [he]
    simp only [reduceCtorEq, false_iff]
    rintro ⟨b, hb, -⟩
    have := hb ⟨e, by omega⟩
    simp only [Nat.zero_add] at this
    rw [h3] at this
    cases this

theorem readCursor_eq_error {s : State} {f : Fault} (h : readCursor s = .error f) :
    ∃ e < 8, f = .unwrittenRead .kc e ∧ s.kc.byte e = none := by
  unfold readCursor at h
  rcases readBytes_cases .kc s.kc 0 8 with ⟨b, hb, -⟩ | ⟨e, he, -, h2, h3⟩
  · rw [hb] at h
    cases h
  · rw [he] at h
    exact ⟨e, by omega, (Except.error.inj h).symm, h3⟩

variable {s t : State} {m : Mode}

theorem execSbox_eq_next {x : BitVec 8} : execSbox x s = .next t ↔
    (s.ctrl.dstOK = false ∧ t = s.setStatus .badDestBlock) ∨
    (s.ctrl.dstOK = true ∧ t = (s.storeDst [lookup s.sbox x]).setStatus .ok) := by
  cases h : s.ctrl.dstOK <;> simp [execSbox, guarded, h]

theorem execKcload_eq_next : execKcload s = .next t ↔
    (s.ctrl.keyOK = false ∧ t = s.setStatus .badKey) ∨
    (s.ctrl.keyOK = true ∧ ∃ k : Vector Byte 8, Holds s.key 0 k ∧
      t = ((s.setKc (s.kc.store 0 k.toList)).setCtrl { s.ctrl with kcV := true }).setStatus .ok) := by
  cases h : s.ctrl.keyOK <;> simp [execKcload, guarded, h, orFault_eq_next, readBytes_eq_ok]

theorem execKcdraw_eq_next {j : BitVec 8} : execKcdraw m j s = .next t ↔
    (s.ctrl.kcOK = false ∧ t = s.setStatus .badKey) ∨
    (s.ctrl.kcOK = true ∧ s.ctrl.dstOK = false ∧ t = s.setStatus .badDestBlock) ∨
    (s.ctrl.kcOK = true ∧ s.ctrl.dstOK = true ∧ ∃ v, readCursor s = .ok v ∧
      t = ((s.storeCursor (draw kcRingOrder v j.toNat m).2).storeDst [(draw kcRingOrder v j.toNat m).1]).setStatus .ok) := by
  cases h : s.ctrl.kcOK <;> cases h' : s.ctrl.dstOK <;>
    simp [execKcdraw, guarded, h, h', orFault_eq_next]

theorem execGfun_eq_next : execGfun s = .next t ↔
    (s.ctrl.srcOK = false ∧ t = s.setStatus .badSourceBlock) ∨
    (s.ctrl.srcOK = true ∧ s.ctrl.dstOK = false ∧ t = s.setStatus .badDestBlock) ∨
    (s.ctrl.srcOK = true ∧ s.ctrl.dstOK = true ∧ ∃ b : Vector Byte 6, Holds s.src 0 b ∧
      t = (s.storeDst [hi8 (gFunction s.sbox (w16 b[0] b[1]) b[2] b[3] b[4] b[5]),
        lo8 (gFunction s.sbox (w16 b[0] b[1]) b[2] b[3] b[4] b[5])]).setStatus .ok) := by
  cases h : s.ctrl.srcOK <;> cases h' : s.ctrl.dstOK <;>
    simp [execGfun, guarded, h, h', orFault_eq_next, readBytes_eq_ok]

/-- What FFUN and ROUND share: three checks, then an effect. -/
theorem guarded_source_cursor_eq_next {effect : StepResult} :
    guarded [(.badSourceBlock, s.ctrl.srcOK), (.badKey, s.ctrl.kcOK), (.badDestBlock, s.ctrl.dstOK)] s effect = .next t ↔
    (s.ctrl.srcOK = false ∧ t = s.setStatus .badSourceBlock) ∨
    (s.ctrl.srcOK = true ∧ s.ctrl.kcOK = false ∧ t = s.setStatus .badKey) ∨
    (s.ctrl.srcOK = true ∧ s.ctrl.kcOK = true ∧ s.ctrl.dstOK = false ∧ t = s.setStatus .badDestBlock) ∨
    (s.ctrl.srcOK = true ∧ s.ctrl.kcOK = true ∧ s.ctrl.dstOK = true ∧ effect = .next t) := by
  cases h : s.ctrl.srcOK <;> cases h' : s.ctrl.kcOK <;> cases h'' : s.ctrl.dstOK <;> simp [guarded]

theorem execFfun_eq_next {r : BitVec 4} : execFfun m r s = .next t ↔
    (s.ctrl.srcOK = false ∧ t = s.setStatus .badSourceBlock) ∨
    (s.ctrl.srcOK = true ∧ s.ctrl.kcOK = false ∧ t = s.setStatus .badKey) ∨
    (s.ctrl.srcOK = true ∧ s.ctrl.kcOK = true ∧ s.ctrl.dstOK = false ∧ t = s.setStatus .badDestBlock) ∨
    (s.ctrl.srcOK = true ∧ s.ctrl.kcOK = true ∧ s.ctrl.dstOK = true ∧
      ∃ b : Vector Byte 4, Holds s.src 0 b ∧ ∃ v, readCursor s = .ok v ∧
        ∃ f, f = fFunction kcRingOrder s.sbox (w16 b[0] b[1]) (w16 b[2] b[3]) r.toNat m v ∧
          t = ((s.storeCursor f.2).storeDst [hi8 f.1.1, lo8 f.1.1, hi8 f.1.2, lo8 f.1.2]).setStatus .ok) := by
  rw [execFfun, guarded_source_cursor_eq_next]
  simp [orFault_eq_next, readBytes_eq_ok]

theorem execRound_eq_next {r : BitVec 4} : execRound m r s = .next t ↔
    (s.ctrl.srcOK = false ∧ t = s.setStatus .badSourceBlock) ∨
    (s.ctrl.srcOK = true ∧ s.ctrl.kcOK = false ∧ t = s.setStatus .badKey) ∨
    (s.ctrl.srcOK = true ∧ s.ctrl.kcOK = true ∧ s.ctrl.dstOK = false ∧ t = s.setStatus .badDestBlock) ∨
    (s.ctrl.srcOK = true ∧ s.ctrl.kcOK = true ∧ s.ctrl.dstOK = true ∧
      ∃ b : Vector Byte 8, Holds s.src 0 b ∧ ∃ v, readCursor s = .ok v ∧
        ∃ f, f = roundStep kcRingOrder s.sbox m r.toNat (wordsOf b) v ∧
          t = ((s.storeCursor f.2).storeDst (bytesOf f.1).toList).setStatus .ok) := by
  rw [execRound, guarded_source_cursor_eq_next]
  simp [orFault_eq_next, readBytes_eq_ok]

theorem execCipher_eq_next : execCipher m s = .next t ↔
    (s.ctrl.srcOK = false ∧ t = s.setStatus .badSourceBlock) ∨
    (s.ctrl.srcOK = true ∧ s.ctrl.keyOK = false ∧ t = s.setStatus .badKey) ∨
    (s.ctrl.srcOK = true ∧ s.ctrl.keyOK = true ∧ s.ctrl.dstOK = false ∧ t = s.setStatus .badDestBlock) ∨
    (s.ctrl.srcOK = true ∧ s.ctrl.keyOK = true ∧ s.ctrl.dstOK = true ∧
      ∃ p : Vector Byte 8, Holds s.src 0 p ∧ ∃ k : Vector Byte 8, Holds s.key 0 k ∧
        t = (s.discardEngine.storeDst (cipher kcRingOrder s.sbox m p k).toList).setStatus .ok) := by
  cases h : s.ctrl.srcOK <;> cases h' : s.ctrl.keyOK <;> cases h'' : s.ctrl.dstOK <;>
    simp [execCipher, guarded, h, h', h'', orFault_eq_next, readBytes_eq_ok]

theorem execHexdec_eq_next {n : BitVec 4} : execHexdec n s = .next t ↔
    (legalLength n.toNat = false ∧ t = s.setStatus .badSize) ∨
    (legalLength n.toNat = true ∧ (s.ctrl.txtPresent && s.ctrl.dstOK) = false ∧ t = s.setStatus .badBuffer) ∨
    (legalLength n.toNat = true ∧ (s.ctrl.txtPresent && s.ctrl.dstOK) = true ∧
      ((scanDigits s.txt s.ctrl.textLength (2 * n.toNat) 0 = .badChar ∧ t = s.setStatus .badChar) ∨
        ∃ ds, scanDigits s.txt s.ctrl.textLength (2 * n.toNat) 0 = .digits ds ∧
          t = (s.storeDst (pairDigits ds)).setStatus .ok)) := by
  cases h : legalLength n.toNat <;> cases h' : (s.ctrl.txtPresent && s.ctrl.dstOK) <;>
    cases hs : scanDigits s.txt s.ctrl.textLength (2 * n.toNat) 0 <;>
    simp [execHexdec, guarded, h, h', hs]

theorem execHexenc_eq_next {n : BitVec 4} : execHexenc n s = .next t ↔
    (legalLength n.toNat = false ∧ t = s.setStatus .badSize) ∨
    (legalLength n.toNat = true ∧ (s.ctrl.srcPresent && s.ctrl.txtPresent) = false ∧ t = s.setStatus .badBuffer) ∨
    (legalLength n.toNat = true ∧ (s.ctrl.srcPresent && s.ctrl.txtPresent) = true ∧
      ∃ b : Vector Byte n.toNat, Holds s.src 0 b ∧
        t = ((s.setTxt (s.txt.store 0 (hexText b.toList))).setCtrl
          { s.ctrl with txtLen := BitVec.ofNat 5 (2 * n.toNat) }).setStatus .ok) := by
  cases h : legalLength n.toNat <;> cases h' : (s.ctrl.srcPresent && s.ctrl.txtPresent) <;>
    simp [execHexenc, guarded, h, h', orFault_eq_next, readBytes_eq_ok]

end Sys2Proof.Machine
end

