-- ==== Sys2Proof/Laws/PerInstr.lean ====
section
/-! SUPPORT. A statement about every command as syntax, one lemma per constructor: the encoder leaves the bits that no command may
set zero (spec/30_encoding.md R80, R86). -/

/-- The encoder leaves the reserved fields RES0 and RES1 zero. -/
def Sys2Proof.Laws.ReservedBitsClear.Statement (i : Sys2Proof.Instr) : Prop :=
  Sys2Proof.encode i &&& 0xFF0000E0#32 = 0#32

namespace Sys2Proof.Laws.ReservedBitsClear

theorem of_commandWord (op : BitVec 4) (mode : BitVec 1) (len rnd : BitVec 4) (idx : BitVec 8) :
    commandWord op mode len rnd idx &&& 0xFF0000E0#32 = 0#32 := by
  rw [← reserved_zero_iff]
  simp

theorem sbox (idx : BitVec 8) : Statement (.sbox idx) := of_commandWord _ _ _ _ _

theorem kcload : Statement .kcload := of_commandWord _ _ _ _ _

theorem kcdraw (mode : Mode) (idx : BitVec 8) : Statement (.kcdraw mode idx) := of_commandWord _ _ _ _ _

theorem gfun : Statement .gfun := of_commandWord _ _ _ _ _

theorem ffun (mode : Mode) (rnd : BitVec 4) : Statement (.ffun mode rnd) := of_commandWord _ _ _ _ _

theorem round (mode : Mode) (rnd : BitVec 4) : Statement (.round mode rnd) := of_commandWord _ _ _ _ _

theorem cipher (mode : Mode) : Statement (.cipher mode) := of_commandWord _ _ _ _ _

theorem hexdec (len : BitVec 4) : Statement (.hexdec len) := of_commandWord _ _ _ _ _

theorem hexenc (len : BitVec 4) : Statement (.hexenc len) := of_commandWord _ _ _ _ _

end Sys2Proof.Laws.ReservedBitsClear
end

