-- ==== Sys2Proof/Laws/Step.lean ====
section
/-! SUPPORT. What a step, a host access and a CMD write can do: one inversion lemma each. -/

namespace Sys2Proof.Machine

variable {s t : State} {w : Word32} {width offset : Nat} {rest : List HostEvent}

theorem step_of_cons {e : HostEvent} (h : s.pending = e :: rest) : step s = hostEvent e (s.setPending rest) := by
  simp [step, h]

/-- A step is idle, or the next event at the port. -/
theorem step_cases (s : State) :
    (s.pending = [] ∧ step s = .next s) ∨
    ∃ e rest, s.pending = e :: rest ∧ step s = hostEvent e (s.setPending rest) := by
  cases h : s.pending with
  | nil => exact .inl ⟨rfl, by simp [step, h]⟩
  | cons e rest => exact .inr ⟨e, rest, rfl, step_of_cons h⟩

/-- The admitted accesses (R61). -/
theorem accessDefect_eq_none : accessDefect width offset = none ↔ width = 32 ∧ offset % 4 = 0 ∧ offset ≤ 0x3C := by
  unfold accessDefect
  split
  · simp
    tauto
  split
  · simp
    tauto
  split
  · simp
    omega
  · simp
    omega

/-- CMD stands at offset 0 and nowhere else (R30). -/
theorem portReg_eq_cmd : portReg offset = .cmd ↔ offset = 0x00 := by
  constructor
  · intro h
    unfold portReg at h
    split at h <;> first | rfl | cases h
  · rintro rfl
    rfl

/-- A CMD write ends with BadCommand, or as its command ends. -/
theorem issueCommand_eq_next : issueCommand w s = .next t ↔
    (∃ e, decode w = .error e ∧ t = commandDone w (s.setStatus .badCommand)) ∨
    (∃ i u, decode w = .ok i ∧ exec i s = .next u ∧ t = commandDone w u) := by
  unfold issueCommand
  cases hd : decode w with
  | error e => simp [raiseError, eq_comm]
  | ok i => cases he : exec i s <;> simp [eq_comm, he]

/-- A write to any other word is one register update at most. -/
theorem portWrite_of_ne_cmd (h : offset ≠ 0x00) :
    ∃ t, portWrite offset w s = .next t ∧
      (t = s ∨ t = s.setCtrl (s.ctrl.write w) ∨ (∃ j, t = s.setSrc (s.src.store (4 * j) (unpackWord w))) ∨
        (∃ j, t = s.setKey (s.key.store (4 * j) (unpackWord w))) ∨
        (∃ j, t = s.setTxt (s.txt.store (4 * j) (unpackWord w)))) := by
  unfold portWrite
  cases hp : portReg offset with
  | cmd => exact absurd (portReg_eq_cmd.1 hp) h
  | status => exact ⟨s, rfl, .inl rfl⟩
  | ctrl => exact ⟨_, rfl, .inr (.inl rfl)⟩
  | src j => exact ⟨_, rfl, .inr (.inr (.inl ⟨j, rfl⟩))⟩
  | key j => exact ⟨_, rfl, .inr (.inr (.inr (.inl ⟨j, rfl⟩)))⟩
  | dst j => exact ⟨s, rfl, .inl rfl⟩
  | txt j => exact ⟨_, rfl, .inr (.inr (.inr (.inr ⟨j, rfl⟩)))⟩
  | unmapped => exact ⟨s, rfl, .inl rfl⟩

/-- A read that goes on adds what it returned to what the host has seen. -/
theorem hostRead_eq_next : hostRead width offset s = .next t ↔
    accessDefect width offset = none ∧ ∃ v, portRead offset s = .ok v ∧ t = s.observe (.readValue offset v) := by
  unfold hostRead
  cases accessDefect width offset <;> simp [orFault_eq_next, eq_comm (b := t)]

theorem hostWrite_eq_next : hostWrite width offset w s = .next t ↔
    accessDefect width offset = none ∧ portWrite offset w s = .next t := by
  unfold hostWrite
  cases accessDefect width offset <;> simp

/-- A reset during a command: the command and then the reset, or the reset and then the command. -/
theorem resetDuring_eq_next : resetDuring w s = .next t ↔
    (Config.resetFirst s.freeCount = true ∧ issueCommand w s.useFree.hardReset = .next t) ∨
    (Config.resetFirst s.freeCount = false ∧ ∃ u, issueCommand w s.useFree = .next u ∧ t = u.hardReset) := by
  unfold resetDuring
  cases h : Config.resetFirst s.freeCount
  · cases issueCommand w s.useFree <;> simp [eq_comm]
  · simp

end Sys2Proof.Machine
end

