-- ==== Sys2Proof/Machine/Assembler.lean ====
section
/-! DEFINITION. The notations of spec/30_encoding.md: the assembler line of R90 and R91, and the host steps WR and RD of R92, as
they reach the port. They are notation: nothing here is read by `step`. How blanks and letter case are treated is the model's own
reading (log 16). -/

namespace Sys2Proof.Machine

/-- A line without the blanks at its two ends. -/
def trimBlanks (l : List Char) : List Char :=
  ((l.dropWhile (· == ' ')).reverse.dropWhile (· == ' ')).reverse

/-- The comma-separated parts of a line, the first of them already begun as `part` (reversed). -/
def splitCommas : List Char → List Char → List (List Char)
  | part, [] => [trimBlanks part.reverse]
  | part, c :: rest => if c = ',' then trimBlanks part.reverse :: splitCommas [] rest else splitCommas (c :: part) rest

/-- A digit of a number in base 10 or 16. -/
def digitValue (base : Nat) (c : Char) : Option Nat :=
  let n := c.toNat
  let d := if 0x30 ≤ n ∧ n ≤ 0x39 then n - 0x30
    else if 0x41 ≤ n ∧ n ≤ 0x46 then n - 0x41 + 10
    else if 0x61 ≤ n ∧ n ≤ 0x66 then n - 0x61 + 10
    else base
  if d < base then some d else none

/-- The digits of a number, after those that gave `acc`. -/
def digitsValue (base : Nat) : Nat → List Char → Option Nat
  | acc, [] => some acc
  | acc, c :: rest =>
    match digitValue base c with
    | some d => digitsValue base (acc * base + d) rest
    | none => none

/-- "Numbers are decimal, or hexadecimal with a `0x` prefix" (R90). -/
def readNumber : List Char → Option Nat
  | '0' :: 'x' :: c :: rest => digitsValue 16 0 (c :: rest)
  | c :: rest => digitsValue 10 0 (c :: rest)
  | [] => none

/-- `m` is `E` (Encrypt) or `D` (Decrypt) (R90). -/
def readMode : List Char → Option Mode
  | ['E'] => some .encrypt
  | ['D'] => some .decrypt
  | _ => none

/-- A line's first word and its comma-separated operands (none where nothing follows the word). -/
def splitLine (line : List Char) : List Char × List (List Char) :=
  let l := trimBlanks line
  let rest := trimBlanks (l.dropWhile (· != ' '))
  (l.takeWhile (· != ' '), if rest = [] then [] else splitCommas [] rest)

/-- One operand that is a number. -/
def withNumber (f : Nat → AsmCommand) : List (List Char) → Option AsmCommand
  | [x] => (readNumber x).map f
  | _ => none

/-- Two operands: a mode and a number. -/
def withModeNumber (f : Mode → Nat → AsmCommand) : List (List Char) → Option AsmCommand
  | [m, x] =>
    match readMode m, readNumber x with
    | some m, some x => some (f m x)
    | _, _ => none
  | _ => none

/-- One operand that is a mode. -/
def withMode (f : Mode → AsmCommand) : List (List Char) → Option AsmCommand
  | [m] => (readMode m).map f
  | _ => none

/-- No operand. -/
def withNothing (c : AsmCommand) : List (List Char) → Option AsmCommand
  | [] => some c
  | _ => none

/-- The mnemonics of R90 and R91, each with how its operands are read. -/
def mnemonicTable : List (List Char × (List (List Char) → Option AsmCommand)) :=
  [ (['S', 'B', 'O', 'X'], withNumber .sbox),
    (['K', 'C', 'L', 'O', 'A', 'D'], withNothing .kcload),
    (['K', 'C', 'D', 'R', 'A', 'W'], withModeNumber .kcdraw),
    (['G', 'F', 'U', 'N'], withNothing .gfun),
    (['F', 'F', 'U', 'N'], withModeNumber .ffun),
    (['R', 'O', 'U', 'N', 'D'], withModeNumber .round),
    (['C', 'I', 'P', 'H', 'E', 'R'], withMode .cipher),
    (['H', 'E', 'X', 'D', 'E', 'C'], withNumber .hexdec),
    (['H', 'E', 'X', 'E', 'N', 'C'], withNumber .hexenc),
    (['E', 'N', 'C', 'R', 'Y', 'P', 'T'], withNothing .encrypt),
    (['D', 'E', 'C', 'R', 'Y', 'P', 'T'], withNothing .decrypt) ]

/-- One assembler line (R90, R91). -/
def parseCommand (line : List Char) : Option AsmCommand :=
  let p := splitLine line
  match mnemonicTable.lookup p.1 with
  | some read => read p.2
  | none => none

/-- The word of an assembler line; a line that is none, or whose operand is out of its range, is refused. -/
def assembleLine (line : List Char) : Option Word32 :=
  match parseCommand line with
  | some c => assemble c
  | none => none

/-- The offsets of the port registers by name (spec/10_state.md R30). -/
def portOffset (name : List Char) : Option Nat :=
  [ (['C', 'M', 'D'], 0x00), (['S', 'T', 'A', 'T', 'U', 'S'], 0x04), (['C', 'T', 'R', 'L'], 0x08),
    (['S', 'R', 'C', '0'], 0x10), (['S', 'R', 'C', '1'], 0x14), (['K', 'E', 'Y', '0'], 0x18), (['K', 'E', 'Y', '1'], 0x1C),
    (['D', 'S', 'T', '0'], 0x20), (['D', 'S', 'T', '1'], 0x24), (['T', 'X', 'T', '0'], 0x30), (['T', 'X', 'T', '1'], 0x34),
    (['T', 'X', 'T', '2'], 0x38), (['T', 'X', 'T', '3'], 0x3C) ].lookup name

/-- `WR reg, v` of R92: a 32-bit host write. A value of more than 32 bits is refused. -/
def readWrite : List (List Char) → Option HostEvent
  | [r, v] =>
    match portOffset r, readNumber v with
    | some o, some n => if n < 2 ^ 32 then some (.write 32 o (BitVec.ofNat 32 n)) else none
    | _, _ => none
  | _ => none

/-- `RD reg` of R92: a 32-bit host read. -/
def readRead : List (List Char) → Option HostEvent
  | [r] => (portOffset r).map (.read 32)
  | _ => none

/-- One line of a host program (R92): a host step, or a command's line, which is a CMD write. -/
def hostStep (line : List Char) : Option HostEvent :=
  let p := splitLine line
  if p.1 = ['W', 'R'] then readWrite p.2
  else if p.1 = ['R', 'D'] then readRead p.2
  else (assembleLine line).map (.write 32 0x00)

end Sys2Proof.Machine
end

