-- ==== Sys2Proof/Tests/Slice0.lean ====
section
/-! SUPPORT. The model's own tests: words and vectors that the spec writes out (spec/30_encoding.md, spec/95_test_vectors.md, cited
by their V- and P- numbers), one step each, and for every statement that has hypotheses a concrete state and operands that meet
them. Expected values come from the spec. -/

namespace Sys2Proof.Tests

open Sys2Proof Sys2Proof.Machine

/- One theorem after the other: each `decide +kernel` below would else hold a thread of its own. -/
set_option Elab.async false

/-! ### Helpers -/

/-- The `n` bytes of a number written in hex, first byte first. -/
def hexBytes (n v : Nat) : List Byte := (List.range n).map fun i => BitVec.ofNat 8 (v / 256 ^ (n - 1 - i))

/-- A register whose first bytes are `l`, the others unwritten. -/
def regOf (n : Nat) (l : List Byte) : ByteReg n := Vector.ofFn fun i : Fin n => l[(i : Nat)]?

/-- A vector of given bytes. -/
def vec (n v : Nat) : Vector Byte n := Vector.ofFn fun i : Fin n => BitVec.ofNat 8 (v / 256 ^ (n - 1 - i))

/-- Every operand valid, as long as it can be. -/
def allValid : Ctrl where
  srcV := true
  srcLen := 8#4
  keyV := true
  keyLen := 8#4
  dstV := true
  txtV := true
  txtLen := 16#5
  kcV := true

/-- A machine whose ROM is `table`, with every register but DST written and every operand valid; TXT holds the text of V-H1. -/
def ready (table : Vector Byte 256) (src key kc : Nat) : State :=
  { State.resetWith table with
    ctrl := allValid
    src := regOf 8 (hexBytes 8 src)
    key := regOf 8 (hexBytes 8 key)
    kc := regOf 8 (hexBytes 8 kc)
    txt := regOf 16 (hexBytes 16 0x30313233343536373839616263646566) }

/-- The same with the known pair of V-C1 and the reference table. -/
def known : State := ready Config.referenceTable 0x0123456789ABCDEF 0xFEDCBA9876543210 0x0123456789ABCDEF

/-- Nothing written, every operand valid. -/
def blank : State := { State.resetWith Config.identityTable with ctrl := allValid }

/-- The next state's fields, if there is one. -/
def after {α : Type} (f : State → α) : StepResult → Option α
  | .next t => some (f t)
  | .fault _ => none
  | .refused _ => none

/-- Whether there is a next state. -/
def goesOn : StepResult → Bool
  | .next _ => true
  | .fault _ => false
  | .refused _ => false

def faultOf : StepResult → Option Fault
  | .next _ => none
  | .fault f => some f
  | .refused _ => none

def refusalOf : StepResult → Option Refusal
  | .next _ => none
  | .fault _ => none
  | .refused r => some r

theorem completes_of_goesOn {r : StepResult} (h : goesOn r = true) : ∃ t, r = .next t := by
  cases r with
  | next t => exact ⟨t, rfl⟩
  | fault f => cases h
  | refused f => cases h

theorem eq_fault_of {r : StepResult} {f : Fault} (h : faultOf r = some f) : r = .fault f := by
  cases r with
  | next t => cases h
  | fault g => rw [Option.some.inj h]
  | refused f => cases h

/-- The first `k` bytes of DST, and the code. -/
def dstCode (k : Nat) (t : State) : List (Option Byte) × Code := (t.dst.toList.take k, t.status)

/-- Written bytes, in hex. -/
def hex (n v : Nat) : List (Option Byte) := (hexBytes n v).map some

/-! ### Encoding -/

/-- R87, R90, V-E5, V-E6, V-H5: a word of every command, written from R80's fields; then decoding of the same words through the
table's numbering. -/
theorem test_decode_words :
    decode 0x00A50001#32 = .ok (.sbox 0xA5#8) ∧ decode 0x00FFF012#32 = .ok .kcload ∧
    decode 0x003F0013#32 = .ok (.kcdraw .decrypt 63#8) ∧ decode 0x00000004#32 = .ok .gfun ∧
    decode 0x00001005#32 = .ok (.ffun .encrypt 1#4) ∧ decode 0x00000016#32 = .ok (.round .decrypt 0#4) ∧
    decode 0x00000017#32 = .ok (.cipher .decrypt) ∧ decode 0x00000908#32 = .ok (.hexdec 9#4) ∧
    decode 0x00000309#32 = .ok (.hexenc 3#4) := by decide

/-- V-E1 to V-E4, V-S4, V-S5: the words that are no command, and why. -/
theorem test_decode_refuses :
    decode 0x00000000#32 = .error .reservedOpcode ∧ decode 0x0000000A#32 = .error .reservedOpcode ∧
    decode 0x0000000F#32 = .error .reservedOpcode ∧ decode 0x00000027#32 = .error .reservedBit ∧
    decode 0x01000007#32 = .error .reservedBit ∧ decode 0x00FF0081#32 = .error .reservedBit ∧
    decode 0xFFFFF011#32 = .error .reservedBit ∧ decode 0x01000000#32 = .error .reservedBit := by decide

/-- R90, R91: what the encoder writes. -/
theorem test_encode_words :
    encode (.ffun .decrypt 15#4) = 0x0000F015#32 ∧ encode (.kcdraw .decrypt 63#8) = 0x003F0013#32 ∧
    encode (.hexenc 8#4) = 0x00000809#32 ∧ encode (.sbox 0xA5#8) = 0x00A50001#32 ∧
    assemble .encrypt = some 0x00000007#32 ∧ assemble .decrypt = some 0x00000017#32 := by decide

/-- The opcode table's rows, by their match words. -/
theorem test_table_words :
    decodeTableWord 32 0x00000001 = some (.sbox 0#8) ∧ decodeTableWord 32 0x00000009 = some (.hexenc 0#4) ∧
    decodeTableWord 32 0x01000001 = none ∧ decodeTableWord 32 0 = none ∧ decodeTableWord 40 0x100000001 = none := by decide

/-- The smoke test of well-formedness: for each check a line that it refuses, and the last one that it admits (R90). -/
theorem test_wellFormed_refuses :
    AsmCommand.wellFormed (.sbox 256) = false ∧ AsmCommand.wellFormed (.sbox 255) = true ∧
    AsmCommand.wellFormed (.kcdraw .encrypt 256) = false ∧ AsmCommand.wellFormed (.kcdraw .encrypt 255) = true ∧
    AsmCommand.wellFormed (.ffun .decrypt 16) = false ∧ AsmCommand.wellFormed (.ffun .decrypt 15) = true ∧
    AsmCommand.wellFormed (.round .encrypt 16) = false ∧ AsmCommand.wellFormed (.round .encrypt 15) = true ∧
    AsmCommand.wellFormed (.hexdec 16) = false ∧ AsmCommand.wellFormed (.hexdec 15) = true ∧
    AsmCommand.wellFormed (.hexenc 16) = false ∧ AsmCommand.wellFormed (.hexenc 15) = true := by decide

/-- R90, R91, R92: lines of the assembler and of a host program. -/
theorem test_assembler_lines :
    assembleLine "KCDRAW D, 63".toList = some 0x003F0013#32 ∧ assembleLine "SBOX 0xA5".toList = some 0x00A50001#32 ∧
    assembleLine "CIPHER E".toList = some 0x00000007#32 ∧ assembleLine "DECRYPT".toList = some 0x00000017#32 ∧
    assembleLine "SBOX 256".toList = none ∧ assembleLine "ROUND E, 16".toList = none ∧
    hostStep "WR CTRL, 0x00018181".toList = some (.write 32 0x08 0x00018181#32) ∧
    hostStep "RD DST1".toList = some (.read 32 0x24) ∧ hostStep "HEXDEC 8".toList = some (.write 32 0x00 0x00000808#32) := by
  decide +kernel

/-! ### One step each -/

/-- R70, V-C1 through the port: the command placed by `withFetchWord` runs as the first step. -/
theorem test_step_runs_placed_word :
    after (dstCode 8) (step (known.withFetchWord 32 0x00000007)) = some (hex 8 0xC478EDA1C1820E01, .ok) := by decide +kernel

/-- P4 steps 1 and 3: from reset, CIPHER E is BadSourceBlock and the word 0 BadCommand. -/
theorem test_first_step_after_reset :
    after State.status (step (State.reset.withFetchWord 32 0x00000007)) = some .badSourceBlock ∧
    after State.status (step (State.reset.withFetchWord 32 0)) = some .badCommand ∧
    after State.status (step State.reset) = some .ok := by decide +kernel

/-- V-S1 under the reference table. -/
theorem test_sbox_reference :
    after (dstCode 1) (exec (.sbox 0x3A#8) known) = some (hex 1 0xE5, .ok) ∧
    after (dstCode 1) (exec (.sbox 0xFF#8) known) = some (hex 1 0x46, .ok) ∧
    after (dstCode 2) (exec (.sbox 0x80#8) known) = some ([some 0x42#8, none], .ok) := by decide +kernel

/-- V-S2 and V-S3. -/
theorem test_sbox_identity_and_error :
    after (dstCode 1) (exec (.sbox 0xA5#8) blank) = some (hex 1 0xA5, .ok) ∧
    after (dstCode 1) (exec (.sbox 0#8) State.reset) = some ([none], .badDestBlock) := by decide +kernel

/-- R116: KCLOAD copies KEY; V-K11: from a KEY never written it faults. -/
theorem test_kcload :
    after (fun t => (t.kc.toList, t.ctrl.kcV, t.status)) (exec .kcload known) = some (hex 8 0xFEDCBA9876543210, true, .ok) ∧
    faultOf (exec .kcload blank) = some (.unwrittenRead .key 0) := by decide +kernel

/-- V-K10: KEY_LEN = 7. -/
theorem test_kcload_short_key :
    after (fun t => (t.kc.toList, t.status)) (exec .kcload (known.setCtrl { allValid with keyLen := 7#4 }))
      = some (hex 8 0x0123456789ABCDEF, .badKey) := by decide +kernel

/-- V-K1, V-K3: the first draw in Encrypt mode, and an index above 7. -/
theorem test_kcdraw_encrypt :
    after (fun t => (dstCode 1 t, t.kc.toList)) (exec (.kcdraw .encrypt 0#8) known)
      = some ((hex 1 0x02, .ok), hex 8 0x02468ACF13579BDE) ∧
    after (dstCode 1) (exec (.kcdraw .encrypt 255#8) known) = some (hex 1 0xDE, .ok) := by decide +kernel

/-- V-K2, V-K9: the first draw in Decrypt mode; with DST_V = 0 nothing rotates. -/
theorem test_kcdraw_decrypt :
    after (fun t => (dstCode 1 t, t.kc.toList)) (exec (.kcdraw .decrypt 7#8) known)
      = some ((hex 1 0xEF, .ok), hex 8 0x8091A2B3C4D5E6F7) ∧
    after (fun t => (t.status, t.kc.toList)) (exec (.kcdraw .decrypt 7#8) (known.setCtrl { allValid with dstV := false }))
      = some (.badDestBlock, hex 8 0x0123456789ABCDEF) := by decide +kernel

/-- V-G3 and V-G5 under the reference table. -/
theorem test_gfun_reference :
    after (dstCode 2) (exec .gfun (ready Config.referenceTable 0x012302468ACF0000 0 0)) = some (hex 2 0x0BFF, .ok) ∧
    after (dstCode 2) (exec .gfun (ready Config.referenceTable 0xABCD123456780000 0 0)) = some (hex 2 0xE864, .ok) := by
  decide +kernel

/-- V-G8 under the identity table, and V-G10. -/
theorem test_gfun_identity_and_error :
    after (dstCode 2) (exec .gfun (ready Config.identityTable 0x1234010204080000 0 0)) = some (hex 2 0x322B, .ok) ∧
    after State.status (exec .gfun (known.setCtrl { allValid with srcLen := 6#4 })) = some .badSourceBlock := by decide +kernel

/-- V-F2 and V-F3: two rounds in Encrypt mode. -/
theorem test_ffun_encrypt :
    after (fun t => (dstCode 4 t, t.kc.toList)) (exec (.ffun .encrypt 0#4) (ready Config.referenceTable 0x1234567800000000 0 0x0123456789ABCDEF))
      = some ((hex 4 0x5BEEE46F, .ok), hex 8 0x3456789ABCDEF012) ∧
    after (dstCode 4) (exec (.ffun .encrypt 1#4) (ready Config.referenceTable 0x1234567800000000 0 0x0123456789ABCDEF))
      = some (hex 4 0xE0BF09ED, .ok) := by decide +kernel

/-- V-F4: Decrypt mode, `kround = 0`. -/
theorem test_ffun_decrypt :
    after (fun t => (dstCode 4 t, t.kc.toList)) (exec (.ffun .decrypt 15#4) (ready Config.referenceTable 0x1234567800000000 0 0x0123456789ABCDEF))
      = some ((hex 4 0x7513BE4C, .ok), hex 8 0xDEF0123456789ABC) := by decide +kernel

/-- V-R2. -/
theorem test_round_encrypt :
    after (fun t => (dstCode 8 t, t.kc.toList)) (exec (.round .encrypt 0#4) (ready Config.referenceTable 0x0123456789ABCDEF 0 0xFEDCBA9876543210))
      = some ((hex 8 0x8B14078A01234567, .ok), hex 8 0xCBA9876543210FED) := by decide +kernel

/-- V-R3. -/
theorem test_round_decrypt :
    after (fun t => (dstCode 8 t, t.kc.toList)) (exec (.round .decrypt 0#4) (ready Config.referenceTable 0x0123456789ABCDEF 0 0xFEDCBA9876543210))
      = some ((hex 8 0x85019DC701234567, .ok), hex 8 0x210FEDCBA9876543) := by decide +kernel

/-- V-C1, D(P) of the pair: Decrypt mode on P itself. -/
theorem test_cipher_decrypt :
    after (dstCode 8) (exec (.cipher .decrypt) known) = some (hex 8 0x92BEF92B5E9D2B4F, .ok) := by decide +kernel

/-- V-C14 and V-C15: which error is reported. -/
theorem test_cipher_errors :
    after State.status (exec (.cipher .encrypt) (known.setCtrl { allValid with srcLen := 9#4, keyV := false })) = some .badSourceBlock ∧
    after State.status (exec (.cipher .encrypt) (known.setCtrl { allValid with keyLen := 0#4 })) = some .badKey := by decide +kernel

/-- V-H1, V-H16: 16 digits, and TXT_LEN = 31 acting as 16. -/
theorem test_hexdec :
    after (dstCode 8) (exec (.hexdec 8#4) known) = some (hex 8 0x0123456789ABCDEF, .ok) ∧
    after (dstCode 8) (exec (.hexdec 8#4) (known.setCtrl { allValid with txtLen := 31#5 })) = some (hex 8 0x0123456789ABCDEF, .ok) := by
  decide +kernel

/-- V-H15 (no byte is written before the bad character) and V-H17 (the scan faults at an unwritten character). -/
theorem test_hexdec_stops :
    after (dstCode 1) (exec (.hexdec 2#4) ((known.setTxt (regOf 16 (hexBytes 4 0x31324734))).setCtrl { allValid with txtLen := 4#5 }))
      = some ([none], .badChar) ∧
    faultOf (exec (.hexdec 3#4) ((known.setTxt (regOf 16 (hexBytes 4 0x31323334))).setCtrl { allValid with txtLen := 6#5 }))
      = some (.unwrittenRead .txt 4) := by decide +kernel

/-- V-H3: three bytes as uppercase digits, the other characters as they were. -/
theorem test_hexenc :
    after (fun t => (t.txt.toList, t.ctrl.txtLen.toNat, t.status)) (exec (.hexenc 3#4) (known.setSrc (regOf 8 (hexBytes 3 0x00ABFF))))
      = some (hex 6 0x303041424646 ++ hex 10 0x36373839616263646566, 6, .ok) := by decide +kernel

/-- V-H20 (SRC_LEN is not checked) and V-H19. -/
theorem test_hexenc_checks :
    after (fun t => t.txt.toList.take 2) (exec (.hexenc 1#4) ((known.setSrc (regOf 8 [0xFF#8])).setCtrl { allValid with srcLen := 0#4 }))
      = some (hex 2 0x4646) ∧
    after State.status (exec (.hexenc 1#4) (known.setCtrl { allValid with srcV := false })) = some .badBuffer := by decide +kernel

/-- R64, R33 on P1: a SRC0 write, a CTRL write, and what the host reads back. -/
theorem test_port_words :
    after (fun t => t.src.toList.take 5) (hostWrite 32 0x10 0x01234567#32 blank) = some (hex 4 0x01234567 ++ [none]) ∧
    after (fun t => (t.ctrl.word, t.history)) (hostRead 32 0x14 (known.setCtrl (Ctrl.reset.write 0xFFFFFFFF#32)))
      = some (0x1F03F1F1#32, [.readValue 0x14 0x89ABCDEF#32]) := by decide +kernel

/-- R62: the three reasons a host access is refused. -/
theorem test_port_refuses :
    refusalOf (hostRead 16 0x04 known) = some (.accessNotAdmitted .width) ∧
    refusalOf (hostRead 32 0x06 known) = some (.accessNotAdmitted .alignment) ∧
    refusalOf (hostWrite 32 0x40 0#32 known) = some (.accessNotAdmitted .range) := by decide +kernel

/-- The 16-bit rotations of spec/95_test_vectors.md, and the ring's. -/
theorem test_rotations :
    rotl16 0x8000#16 = 0x0001#16 ∧ rotr16 0x0001#16 = 0x8000#16 ∧ rotl16 0x1234#16 = 0x2468#16 ∧ rotr16 0x1234#16 = 0x091A#16 ∧
    rotl64 0x8000000000000000#64 = 1#64 ∧ rotr64 0x0123456789ABCDEF#64 = 0x8091A2B3C4D5E6F7#64 := by decide

/-- A platform write reaches the second of two instances (R71, R74), and an address between the windows none. -/
theorem test_platform_route :
    (match platformEvent (.write 32 0x108 0x00018181#32) [⟨0, blank⟩, ⟨0x100, State.reset⟩] with
      | .next l => l.map fun sl => sl.core.ctrl.word
      | .fault _ => []
      | .refused _ => []) = [0x90038181#32, 0x00018181#32] ∧
    (match platformEvent (.read 32 0x40) [⟨0, blank⟩, ⟨0x100, State.reset⟩] with
      | .next _ => none
      | .fault _ => none
      | .refused r => some r) = some (.noInstanceAt 0x40) := by decide +kernel

/-! ### Witnesses: states and operands that meet the hypotheses of each statement that has any, clause by clause -/

/-- A state with one event at the port. -/
def having (s : State) (e : HostEvent) : State := s.setPending [e]

/-- `TableWordsDecode`: a word of each row, every bit that the row does not use set. -/
theorem witness_TableWordsDecode :
    0x00FFFF11#32 &&& 0xFF0000EF#32 = 0x1#32 ∧ 0x00FFFF12#32 &&& 0xFF0000EF#32 = 0x2#32 ∧
    0x00FFFF13#32 &&& 0xFF0000EF#32 = 0x3#32 ∧ 0x00FFFF14#32 &&& 0xFF0000EF#32 = 0x4#32 ∧
    0x00FFFF15#32 &&& 0xFF0000EF#32 = 0x5#32 ∧ 0x00FFFF16#32 &&& 0xFF0000EF#32 = 0x6#32 ∧
    0x00FFFF17#32 &&& 0xFF0000EF#32 = 0x7#32 ∧ 0x00FFFF18#32 &&& 0xFF0000EF#32 = 0x8#32 ∧
    0x00FFFF19#32 &&& 0xFF0000EF#32 = 0x9#32 := by decide

/-- `AssemblerKeepsOrRefusesOperands`: both sides of each bound, and what the assembler answers there. -/
theorem witness_AssemblerKeepsOrRefusesOperands :
    assemble (.sbox 255) = some 0x00FF0001#32 ∧ assemble (.sbox 256) = none ∧ assemble (.kcdraw .decrypt 255) = some 0x00FF0013#32 ∧
    assemble (.kcdraw .decrypt 256) = none ∧ assemble (.hexdec 15) = some 0x00000F08#32 ∧ assemble (.hexdec 16) = none ∧
    assemble (.hexenc 15) = some 0x00000F09#32 ∧ assemble (.hexenc 16) = none ∧
    assemble (.ffun .encrypt 15) = some 0x0000F005#32 ∧ assemble (.ffun .encrypt 16) = none ∧
    assemble (.round .encrypt 15) = some 0x0000F006#32 ∧ assemble (.round .encrypt 16) = none := by decide

/-- `StepRunsIssuedCommand`. -/
theorem witness_StepRunsIssuedCommand :
    ∃ (s : State) (w : Word32) (rest : List HostEvent) (i : Instr), s.pending = .write 32 0x00 w :: rest ∧ decode w = .ok i :=
  ⟨known.withFetchWord 32 0x00000007, _, _, _, rfl, rfl⟩

/-- `IdleCoreHoldsItsState`. -/
theorem witness_IdleCoreHoldsItsState : State.reset.pending = [] := rfl

/-- `PortRefusesInadmissibleAccesses`: the last admitted offset, the first past it, an unaligned one, another width. -/
theorem witness_PortRefusesInadmissibleAccesses :
    (∀ a ∈ [(32, 0x3C), (32, 0x40), (32, 0x3D), (8, 0x3C)],
      (having known (.read a.1 a.2)).pending = [.read a.1 a.2] ∧
      (having known (.write a.1 a.2 0#32)).pending = [.write a.1 a.2 0#32]) ∧
    goesOn (step (having known (.read 32 0x3C))) = true ∧
    refusalOf (step (having known (.read 32 0x40))) = some (.accessNotAdmitted .range) ∧
    refusalOf (step (having known (.read 32 0x3D))) = some (.accessNotAdmitted .alignment) ∧
    refusalOf (step (having known (.write 8 0x3C 0#32))) = some (.accessNotAdmitted .width) := by decide +kernel

/-- `UnmappedOffsetsReadZero`: the three offsets, a read and a write of each. -/
theorem witness_UnmappedOffsetsReadZero :
    ∀ o ∈ [0x0C, 0x28, 0x2C], (o = 0x0C ∨ o = 0x28 ∨ o = 0x2C) ∧ (having known (.read 32 o)).pending = [.read 32 o] ∧
      (having known (.write 32 o 1#32)).pending = [.write 32 o 1#32] := by decide +kernel

/-- `ReadOnlyWordsIgnoreWrites`: its two reads and three writes. -/
theorem witness_ReadOnlyWordsIgnoreWrites :
    (∀ o ∈ [0x00, 0x04], (having known (.read 32 o)).pending = [.read 32 o]) ∧
    ∀ o ∈ [0x04, 0x20, 0x24], (having known (.write 32 o 1#32)).pending = [.write 32 o 1#32] := by decide +kernel

/-- `DataWordReadPacksFourBytes` at the first and the last data word. -/
theorem witness_DataWordReadPacksFourBytes :
    ((0x10, DataReg.src, 0) ∈ dataWords ∧ (∀ m : Fin 4, known.dataByte .src (4 * 0 + m) = some (vec 4 0x01234567)[m]) ∧
      (having known (.read 32 0x10)).pending = [.read 32 0x10]) ∧
    ((0x3C, DataReg.txt, 3) ∈ dataWords ∧ (∀ m : Fin 4, known.dataByte .txt (4 * 3 + m) = some (vec 4 0x63646566)[m]) ∧
      (having known (.read 32 0x3C)).pending = [.read 32 0x3C]) := by decide +kernel

/-- `DataWordWriteStoresFourBytes` at the first and the last writable word. -/
theorem witness_DataWordWriteStoresFourBytes :
    ((0x10, DataReg.src, 0) ∈ writableWords ∧ (having known (.write 32 0x10 5#32)).pending = [.write 32 0x10 5#32]) ∧
    ((0x3C, DataReg.txt, 3) ∈ writableWords ∧ (having known (.write 32 0x3C 5#32)).pending = [.write 32 0x3C 5#32]) := by
  decide +kernel

/-- `CtrlWriteKeepsCursorValidBit`: a read, and a write of every bit. -/
theorem witness_CtrlWriteKeepsCursorValidBit :
    (having known (.read 32 0x08)).pending = [.read 32 0x08] ∧
    (having known (.write 32 0x08 0xFFFFFFFF#32)).pending = [.write 32 0x08 0xFFFFFFFF#32] := by decide +kernel

/-- `UnwrittenDataWordReadFaults`: DST1, of which byte 7 alone is unwritten. -/
theorem witness_UnwrittenDataWordReadFaults :
    let s := having (known.setDst (regOf 8 (hexBytes 7 0))) (.read 32 0x24)
    (0x24, DataReg.dst, 1) ∈ dataWords ∧ (∃ k < 4, s.dataByte .dst (4 * 1 + k) = none) ∧ s.pending = [.read 32 0x24] ∧
      faultOf (step s) = some (.unwrittenRead .dst 7) := by decide +kernel

/-- `PortReadsHaveNoSideEffect`. -/
theorem witness_PortReadsHaveNoSideEffect :
    (having known (.read 32 0x3C)).pending = .read 32 0x3C :: [] ∧ ∃ t, step (having known (.read 32 0x3C)) = .next t :=
  ⟨rfl, completes_of_goesOn (by decide +kernel)⟩

/-- `PortWritesAreIdempotent`. -/
theorem witness_PortWritesAreIdempotent :
    let s := known.setPending [.write 32 0x04 1#32, .write 32 0x04 1#32]
    (0x04 ≠ 0x00) ∧ s.pending = .write 32 0x04 1#32 :: .write 32 0x04 1#32 :: [] ∧ ∃ t, step s = .next t :=
  ⟨by decide, rfl, completes_of_goesOn (by decide +kernel)⟩

/-- `ReservedBitsRaiseBadCommand` at the lowest and the highest reserved bit. -/
theorem witness_ReservedBitsRaiseBadCommand :
    (having known (.write 32 0x00 0x00000027#32)).pending = .write 32 0x00 0x00000027#32 :: [] ∧ 0x00000027#32 &&& 0xFF0000E0#32 ≠ 0#32 ∧
    (having known (.write 32 0x00 0x80000007#32)).pending = .write 32 0x00 0x80000007#32 :: [] ∧ 0x80000007#32 &&& 0xFF0000E0#32 ≠ 0#32 :=
  ⟨rfl, by decide, rfl, by decide⟩

/-- `ReservedOpcodesRaiseBadCommand`: OP 0, 0xA and 0xF. -/
theorem witness_ReservedOpcodesRaiseBadCommand :
    (having known (.write 32 0x00 0x00000000#32)).pending = .write 32 0x00 0x00000000#32 :: [] ∧ (0x00000000#32).toNat % 16 = 0 ∧
    (having known (.write 32 0x00 0x0000000A#32)).pending = .write 32 0x00 0x0000000A#32 :: [] ∧ 10 ≤ (0x0000000A#32).toNat % 16 ∧
    (having known (.write 32 0x00 0x0000000F#32)).pending = .write 32 0x00 0x0000000F#32 :: [] ∧ 10 ≤ (0x0000000F#32).toNat % 16 :=
  ⟨rfl, by decide, rfl, by decide, rfl, by decide⟩

/-- `ErrorsWriteOnlyStatus`, both clauses. -/
theorem witness_ErrorsWriteOnlyStatus :
    (∃ t, exec (.cipher .encrypt) State.reset = .next t ∧ t.status ≠ .ok) ∧
    (having State.reset (.write 32 0x00 0#32)).pending = [.write 32 0x00 0#32] ∧
    ∃ t, step (having State.reset (.write 32 0x00 0#32)) = .next t ∧ t.status ≠ .ok :=
  ⟨⟨State.reset.setStatus .badSourceBlock, rfl, by decide⟩, rfl,
    ⟨commandDone 0#32 ((State.reset.setPending []).setStatus .badCommand), rfl, nofun⟩⟩

/-- `ChecksRunInOrder`: for each of its clauses a CTRL, and lengths at both ends of the legal range. -/
theorem witness_ChecksRunInOrder :
    ({ allValid with dstV := false } : Ctrl).dstV = false ∧ ({ allValid with dstV := false } : Ctrl).kcV = true ∧
    ¬ (({ allValid with keyLen := 7#4 } : Ctrl).keyV = true ∧ ({ allValid with keyLen := 7#4 } : Ctrl).keyLen = 8#4) ∧
    ¬ (({ allValid with srcV := false } : Ctrl).srcV = true ∧ ({ allValid with srcV := false } : Ctrl).srcLen = 8#4) ∧
    ({ allValid with kcV := false } : Ctrl).kcV = false ∧
    (({ allValid with kcV := false } : Ctrl).srcV = true ∧ ({ allValid with kcV := false } : Ctrl).srcLen = 8#4) ∧
    (({ allValid with dstV := false } : Ctrl).srcV = true ∧ ({ allValid with dstV := false } : Ctrl).srcLen = 8#4) ∧
    (({ allValid with dstV := false } : Ctrl).keyV = true ∧ ({ allValid with dstV := false } : Ctrl).keyLen = 8#4) ∧
    (({ allValid with keyLen := 7#4 } : Ctrl).srcV = true ∧ ({ allValid with keyLen := 7#4 } : Ctrl).srcLen = 8#4) ∧
    ¬ (1 ≤ (0#4).toNat ∧ (0#4).toNat ≤ 8) ∧ ¬ (1 ≤ (9#4).toNat ∧ (9#4).toNat ≤ 8) ∧
    (1 ≤ (1#4).toNat ∧ (8#4).toNat ≤ 8) ∧ ({ allValid with txtV := false } : Ctrl).txtV = false := by decide

/-- `HexdecScansInOrder`, its three clauses: a text that ends at the scanned position, an unwritten character there, a character
that is no digit there. -/
theorem witness_HexdecScansInOrder :
    (let s := known.setCtrl { allValid with txtLen := 3#5 };
      1 ≤ (2#4).toNat ∧ (2#4).toNat ≤ 8 ∧ s.ctrl.txtV = true ∧ s.ctrl.dstV = true ∧ 3 < 2 * (2#4).toNat ∧
      (∀ p < 3, p < min s.ctrl.txtLen.toNat 16 ∧ s.txt.byte p = some (BitVec.ofNat 8 (0x30 + p)) ∧ IsDigit (BitVec.ofNat 8 (0x30 + p)) p) ∧
      min s.ctrl.txtLen.toNat 16 ≤ 3) ∧
    (let s := known.setTxt (regOf 16 (hexBytes 1 0x30));
      1 ≤ (1#4).toNat ∧ (1#4).toNat ≤ 8 ∧ s.ctrl.txtV = true ∧ s.ctrl.dstV = true ∧ 1 < 2 * (1#4).toNat ∧
      (∀ p < 1, p < min s.ctrl.txtLen.toNat 16 ∧ s.txt.byte p = some 0x30#8 ∧ IsDigit 0x30#8 0) ∧
      1 < min s.ctrl.txtLen.toNat 16 ∧ s.txt.byte 1 = none) ∧
    (let s := known.setTxt (regOf 16 (hexBytes 2 0x3047));
      1 ≤ (1#4).toNat ∧ (1#4).toNat ≤ 8 ∧ s.ctrl.txtV = true ∧ s.ctrl.dstV = true ∧ 1 < 2 * (1#4).toNat ∧
      (∀ p < 1, p < min s.ctrl.txtLen.toNat 16 ∧ s.txt.byte p = some 0x30#8 ∧ IsDigit 0x30#8 0) ∧
      1 < min s.ctrl.txtLen.toNat 16 ∧ s.txt.byte 1 = some 0x47#8) ∧ ¬ ∃ v, IsDigit 0x47#8 v := by
  refine ⟨by decide +kernel, by decide +kernel, by decide +kernel, ?_⟩
  rintro ⟨v, h⟩
  simp only [IsDigit, BitVec.toNat_ofNat] at h
  omega

/-- `CommandsFaultOnlyOnUnwrittenBytes`, its second clause. -/
theorem witness_CommandsFaultOnlyOnUnwrittenBytes : exec .gfun blank = .fault (.unwrittenRead .src 0) :=
  eq_fault_of (by decide +kernel)

/-- `UnwrittenOperandsFault`: nothing written meets all clauses but CIPHER's second, for which SRC is written; LEN at both ends. -/
theorem witness_UnwrittenOperandsFault :
    (blank.ctrl.srcV = true ∧ blank.ctrl.srcLen = 8#4) ∧ (blank.ctrl.keyV = true ∧ blank.ctrl.keyLen = 8#4) ∧
    blank.ctrl.kcV = true ∧ blank.ctrl.dstV = true ∧ blank.ctrl.txtV = true ∧
    ¬ Written blank.key 8 ∧ ¬ Written blank.src 4 ∧ ¬ Written blank.src 6 ∧ ¬ Written blank.src 8 ∧
    ¬ Written blank.src (1#4).toNat ∧ ¬ Written blank.src (8#4).toNat ∧ 1 ≤ (1#4).toNat ∧ (8#4).toNat ≤ 8 ∧
    (blank.setSrc known.src).ctrl = blank.ctrl ∧ Written (blank.setSrc known.src).src 8 ∧
    ¬ Written (blank.setSrc known.src).key 8 := by decide +kernel

/-- `CommandsCompleteOnWrittenRegisters`. -/
theorem witness_CommandsCompleteOnWrittenRegisters :
    Written known.src 8 ∧ Written known.key 8 ∧ Written known.txt 16 ∧ Written known.kc 8 := by decide +kernel

/-- `ResetTakesEffectBetweenCommands`: a reset event, and one during a command, which goes on whichever side it falls. -/
theorem witness_ResetTakesEffectBetweenCommands :
    (having known .reset).pending = .reset :: [] ∧
    (having known (.resetDuring 0#32)).pending = .resetDuring 0#32 :: [] ∧
    ∃ t, step (having known (.resetDuring 0#32)) = .next t := by
  refine ⟨rfl, rfl, ?_⟩
  show ∃ t, resetDuring 0#32 (known.setPending []) = .next t
  unfold resetDuring
  split
  · exact ⟨_, rfl⟩
  · exact ⟨_, rfl⟩

/-- `SboxStoresTableEntry`, `KcloadCopiesKey`, `KcdrawRotatesAndReads`, `GfunComputesChain`, `FfunMixesTwoGOutputs`,
`RoundComputesNewHalf` and `CipherWritesWhitenedRounds`: the operands of `known`. -/
theorem witness_operands :
    known.ctrl.srcV = true ∧ known.ctrl.srcLen = 8#4 ∧ known.ctrl.keyV = true ∧ known.ctrl.keyLen = 8#4 ∧ known.ctrl.kcV = true ∧
    known.ctrl.dstV = true ∧ Holds known.src 0 (vec 4 0x01234567) ∧ Holds known.src 0 (vec 6 0x0123456789AB) ∧
    Holds known.src 0 (vec 8 0x0123456789ABCDEF) ∧ Holds known.key 0 (vec 8 0xFEDCBA9876543210) ∧
    Holds known.kc 0 (vec 8 0x0123456789ABCDEF) := by decide +kernel

/-- `HexdecStoresDigitPairs` at n = 8 and n = 1. -/
theorem witness_HexdecStoresDigitPairs :
    known.ctrl.txtV = true ∧ known.ctrl.dstV = true ∧ 1 ≤ (1#4).toNat ∧ (8#4).toNat ≤ 8 ∧
    2 * (8#4).toNat ≤ min known.ctrl.txtLen.toNat 16 ∧
    (∀ c < 2 * (8#4).toNat, known.txt.byte c = some ((vec 16 0x30313233343536373839616263646566)[c]?.getD 0#8) ∧
      IsDigit ((vec 16 0x30313233343536373839616263646566)[c]?.getD 0#8) c) := by decide +kernel

/-- `HexencWritesUppercaseDigits` and `HexRoundTrip` at n = 8 and n = 1. -/
theorem witness_HexencWritesUppercaseDigits :
    known.ctrl.srcV = true ∧ known.ctrl.txtV = true ∧ known.ctrl.dstV = true ∧ 1 ≤ (1#4).toNat ∧ (8#4).toNat ≤ 8 ∧
    (∀ j < (8#4).toNat, known.src.byte j = some ((vec 8 0x0123456789ABCDEF)[j]?.getD 0#8)) := by decide +kernel

/-- `DecryptionTraceMirrorsEncryption`: both ends of its range. -/
theorem witness_DecryptionTraceMirrorsEncryption : (0 : Nat) ≤ 16 ∧ (16 : Nat) ≤ 16 := by decide

/-- `CipherResultsAreIndependent`: two states that agree on what CIPHER reads and differ in KC, KC_V, TXT_V and TXT_LEN. -/
theorem witness_CipherResultsAreIndependent :
    let other := (ready Config.referenceTable 0x0123456789ABCDEF 0xFEDCBA9876543210 0).setCtrl
      { allValid with kcV := false, txtV := false, txtLen := 0#5 }
    other.sbox = known.sbox ∧ other.src = known.src ∧ other.key = known.key ∧ other.ctrl.srcV = known.ctrl.srcV ∧
      other.ctrl.srcLen = known.ctrl.srcLen ∧ other.ctrl.keyV = known.ctrl.keyV ∧ other.ctrl.keyLen = known.ctrl.keyLen ∧
      other.ctrl.dstV = known.ctrl.dstV ∧ (∃ t, exec (.cipher .encrypt) known = .next t) ∧ other.kc ≠ known.kc ∧
      other.ctrl.kcV ≠ known.ctrl.kcV ∧ other.ctrl.txtLen ≠ known.ctrl.txtLen :=
  ⟨rfl, rfl, rfl, rfl, rfl, rfl, rfl, rfl, completes_of_goesOn (by decide +kernel), by decide +kernel, by decide, by decide⟩

/-- `DstCommandsFrame`, `CursorCommandsFrame`, `LoadCipherEncodeFrame` and the first clause of `CommandsWriteTwoCtrlFieldsOnly`:
every command answers a next state on `known`, with the code OK. -/
theorem witness_frames :
    ∀ i ∈ [Instr.sbox 0#8, .kcload, .kcdraw .encrypt 0#8, .gfun, .ffun .decrypt 15#4, .round .encrypt 0#4, .cipher .decrypt,
      .hexdec 8#4, .hexenc 1#4], after State.status (exec i known) = some .ok := by decide +kernel

/-- The second clause of `CommandsWriteTwoCtrlFieldsOnly`: a reset, which does clear KC_V. -/
theorem witness_CommandsWriteTwoCtrlFieldsOnly :
    ∃ t, (having known .reset).pending = .reset :: [] ∧ step (having known .reset) = .next t ∧
      (having known .reset).ctrl.kcV = true ∧ t.ctrl.kcV = false :=
  ⟨(known.setPending []).hardReset, rfl, rfl, rfl, rfl⟩

/-- `StepKeepsCursorLoaded` and `StepKeepsSubstitutionTable`: a loaded cursor, and a step that goes on. -/
theorem witness_StepKeepsCursorLoaded :
    CursorLoaded (having known (.write 32 0x00 0x00000003#32)) ∧ known.ctrl.kcV = true ∧
    ∃ t, step (having known (.write 32 0x00 0x00000003#32)) = .next t :=
  ⟨by decide +kernel, rfl, completes_of_goesOn (by decide +kernel)⟩

/-- `WrittenBytesStayWritten`. -/
theorem witness_WrittenBytesStayWritten :
    (having known (.write 32 0x00 0x00000007#32)).pending = .write 32 0x00 0x00000007#32 :: [] ∧
    (HostEvent.write 32 0x00 0x00000007#32).isAccess = true ∧
    ∃ t, step (having known (.write 32 0x00 0x00000007#32)) = .next t :=
  ⟨rfl, rfl, completes_of_goesOn (by decide +kernel)⟩

/-- Two instances whose windows touch. -/
theorem slots_apart : [Slot.mk 0 blank, Slot.mk 64 known].Pairwise windowsApart := by
  simp [windowsApart]

/-- `PlatformAccessReachesOneInstance`: the last address of the second window, a read and a write. -/
theorem witness_PlatformAccessReachesOneInstance :
    ([Slot.mk 0 blank] ++ Slot.mk 64 known :: []).Pairwise windowsApart ∧ (64 : Nat) ≤ 0x7C ∧ (0x7C : Nat) < 64 + 64 ∧
    (∃ t, hostRead 32 (0x7C - 64) known = .next t) ∧ ∃ t, hostWrite 32 (0x7C - 64) 1#32 known = .next t :=
  ⟨slots_apart, by decide, by decide, completes_of_goesOn (by decide +kernel), completes_of_goesOn (by decide +kernel)⟩

/-- `PlatformWritesCommute`: a CTRL write to one instance and a command to the other. -/
theorem witness_PlatformWritesCommute :
    [Slot.mk 0 blank, Slot.mk 64 known].Pairwise windowsApart ∧
    (∃ sa ∈ [Slot.mk 0 blank, Slot.mk 64 known], ∃ sb ∈ [Slot.mk 0 blank, Slot.mk 64 known],
      sa.base ≠ sb.base ∧ sa.base ≤ 0x08 ∧ 0x08 < sa.base + 64 ∧ sb.base ≤ 0x40 ∧ 0x40 < sb.base + 64) ∧
    ∃ u v, platformEvent (.write 32 0x08 1#32) [Slot.mk 0 blank, Slot.mk 64 known] = .next u ∧
      platformEvent (.write 32 0x40 0#32) u = .next v :=
  ⟨slots_apart, ⟨Slot.mk 0 blank, by simp, Slot.mk 64 known, by simp, by decide, by decide, by decide, by decide, by decide⟩,
    _, _, rfl, rfl⟩

/-- `PlatformStepKeepsWf`: two instances after reset, and a step of theirs that takes an event: a write, and a reset of both. -/
theorem witness_PlatformStepKeepsWf :
    let p (e : PlatformEvent) : Platform := ⟨(platformReset [0, 64]).slots, [e]⟩
    (∀ e, platformWf (p e)) ∧ (∃ q, platformStep (p (.write 32 0x48 1#32)) = .next q) ∧ ∃ q, platformStep (p .reset) = .next q := by
  refine ⟨fun e => ⟨by simp [platformReset], by simp [platformReset, windowsApart], Config.ftable, ?_⟩, ⟨_, rfl⟩, ⟨_, rfl⟩⟩
  intro sl h
  simp only [platformReset, List.map_cons, List.map_nil, List.mem_cons, List.not_mem_nil, or_false] at h
  rcases h with rfl | rfl <;> rfl

end Sys2Proof.Tests
end

section
/-! The substitution ROM (R21): no command, no host access and no reset writes it. -/

namespace Sys2Proof.Machine

variable {s t : State} {w : Word32} {width offset : Nat}

theorem sbox_of_exec {i : Instr} (h : exec i s = .next t) : t.sbox = s.sbox := by
  cases i with
  | sbox => obtain ⟨-, rfl⟩ | ⟨-, rfl⟩ := execSbox_eq_next.1 h <;> simp
  | kcload => obtain ⟨-, rfl⟩ | ⟨-, _, -, rfl⟩ := execKcload_eq_next.1 h <;> simp
  | kcdraw => obtain ⟨-, rfl⟩ | ⟨-, -, rfl⟩ | ⟨-, -, _, -, rfl⟩ := execKcdraw_eq_next.1 h <;> simp
  | gfun => obtain ⟨-, rfl⟩ | ⟨-, -, rfl⟩ | ⟨-, -, _, -, rfl⟩ := execGfun_eq_next.1 h <;> simp
  | ffun =>
    obtain ⟨-, rfl⟩ | ⟨-, -, rfl⟩ | ⟨-, -, -, rfl⟩ | ⟨-, -, -, _, -, _, -, _, -, rfl⟩ := execFfun_eq_next.1 h <;> simp
  | round =>
    obtain ⟨-, rfl⟩ | ⟨-, -, rfl⟩ | ⟨-, -, -, rfl⟩ | ⟨-, -, -, _, -, _, -, _, -, rfl⟩ := execRound_eq_next.1 h <;> simp
  | cipher =>
    obtain ⟨-, rfl⟩ | ⟨-, -, rfl⟩ | ⟨-, -, -, rfl⟩ | ⟨-, -, -, _, -, _, -, rfl⟩ := execCipher_eq_next.1 h <;> simp
  | hexdec =>
    obtain ⟨-, rfl⟩ | ⟨-, -, rfl⟩ | ⟨-, -, ⟨-, rfl⟩ | ⟨_, -, rfl⟩⟩ := execHexdec_eq_next.1 h <;> simp
  | hexenc => obtain ⟨-, rfl⟩ | ⟨-, -, rfl⟩ | ⟨-, -, _, -, rfl⟩ := execHexenc_eq_next.1 h <;> simp

@[simp] theorem commandDone_sbox : (commandDone w s).sbox = s.sbox := rfl

theorem sbox_of_issueCommand (h : issueCommand w s = .next t) : t.sbox = s.sbox := by
  obtain ⟨_, -, rfl⟩ | ⟨i, u, -, hu, rfl⟩ := issueCommand_eq_next.1 h
  · simp
  · simpa using sbox_of_exec hu

theorem sbox_of_hostRead (h : hostRead width offset s = .next t) : t.sbox = s.sbox := by
  obtain ⟨-, _, -, rfl⟩ := hostRead_eq_next.1 h
  simp

theorem sbox_of_portWrite (h : portWrite offset w s = .next t) : t.sbox = s.sbox := by
  by_cases hcmd : offset = 0x00
  · subst hcmd
    exact sbox_of_issueCommand h
  · obtain ⟨u, hu, hcases⟩ := portWrite_of_ne_cmd (s := s) (w := w) hcmd
    obtain rfl : u = t := by simpa [hu] using h
    obtain rfl | rfl | ⟨_, rfl⟩ | ⟨_, rfl⟩ | ⟨_, rfl⟩ := hcases <;> simp

theorem sbox_of_hostWrite (h : hostWrite width offset w s = .next t) : t.sbox = s.sbox :=
  sbox_of_portWrite (hostWrite_eq_next.1 h).2

end Sys2Proof.Machine
end

section
/-! A platform of several instances (R10, R71, R74, R224): what an access, an event and a step can do to the list of instances. -/

namespace Sys2Proof.Machine

/-- An access that goes on is a step of one instance, the one whose window holds the address; the others, before and after it
in the list, stay as they are (R71, R74). -/
theorem routeAccess_eq_next {access : Nat → State → StepResult} {address : Nat} {slots result : List Slot}
    (h : routeAccess access address slots = .next result) :
    ∃ before sl after t, slots = before ++ sl :: after ∧ inWindow sl address = true ∧
      access (address - sl.base) sl.core = .next t ∧ result = before ++ ⟨sl.base, t⟩ :: after := by
  induction slots generalizing result with
  | nil => cases h
  | cons sl rest ih =>
    unfold routeAccess at h
    split at h
    case isTrue hin =>
      split at h <;> cases h
      next t ht => exact ⟨[], sl, rest, t, rfl, hin, ht, rfl⟩
    case isFalse =>
      split at h <;> cases h
      next r hr =>
        obtain ⟨before, sl', after, t, rfl, hin, ht, rfl⟩ := ih hr
        exact ⟨sl :: before, sl', after, t, rfl, hin, ht, rfl⟩

/-- Two lists of instances agree on the places and on the tables of their instances, in order. -/
def SamePlacesAndTables (a b : List Slot) : Prop :=
  b.map Slot.base = a.map Slot.base ∧ b.map (fun sl => sl.core.sbox) = a.map (fun sl => sl.core.sbox)

theorem SamePlacesAndTables.refl (a : List Slot) : SamePlacesAndTables a a := ⟨rfl, rfl⟩

theorem routeAccess_samePlacesAndTables {access : Nat → State → StepResult} {address : Nat} {slots result : List Slot}
    (hrom : ∀ offset s t, access offset s = .next t → t.sbox = s.sbox)
    (h : routeAccess access address slots = .next result) : SamePlacesAndTables slots result := by
  obtain ⟨before, sl, after, t, rfl, -, ht, rfl⟩ := routeAccess_eq_next h
  simp [SamePlacesAndTables, hrom _ _ _ ht]

theorem platformEvent_samePlacesAndTables {e : PlatformEvent} {slots result : List Slot}
    (h : platformEvent e slots = .next result) : SamePlacesAndTables slots result := by
  cases e with
  | read => exact routeAccess_samePlacesAndTables (fun _ _ _ => sbox_of_hostRead) h
  | write => exact routeAccess_samePlacesAndTables (fun _ _ _ => sbox_of_hostWrite) h
  | reset =>
    cases h
    simp [SamePlacesAndTables]

/-- A platform step is idle, or the next event. -/
theorem platformStep_eq_next {p q : Platform} (h : platformStep p = .next q) :
    (p.pending = [] ∧ q = p) ∨
    ∃ e rest, p.pending = e :: rest ∧ platformEvent e p.slots = .next q.slots ∧ q.pending = rest := by
  unfold platformStep at h
  split at h
  case h_1 hp =>
    cases h
    exact .inl ⟨hp, rfl⟩
  case h_2 e rest hp =>
    split at h <;> cases h
    next slots hslots => exact .inr ⟨e, rest, hp, hslots, rfl⟩

theorem platformStep_samePlacesAndTables {p q : Platform} (h : platformStep p = .next q) :
    SamePlacesAndTables p.slots q.slots := by
  obtain ⟨-, rfl⟩ | ⟨_, _, -, hevent, -⟩ := platformStep_eq_next h
  · exact .refl _
  · exact platformEvent_samePlacesAndTables hevent

/-- The platform's invariant speaks of nothing but the list of the places and the list of the tables. -/
theorem platformWf_iff_places_tables {p : Platform} :
    platformWf p ↔ p.slots.map Slot.base ≠ [] ∧
      (p.slots.map Slot.base).Pairwise (fun a b => a + 64 ≤ b ∨ b + 64 ≤ a) ∧
      ∃ table, ∀ x ∈ p.slots.map (fun sl => sl.core.sbox), x = table := by
  have hwindows : p.slots.Pairwise windowsApart ↔
      (p.slots.map Slot.base).Pairwise (fun a b => a + 64 ≤ b ∨ b + 64 ≤ a) :=
    (List.pairwise_map (f := Slot.base) (R := fun a b => a + 64 ≤ b ∨ b + 64 ≤ a)).symm
  simp [platformWf, hwindows]

theorem SamePlacesAndTables.keeps_platformWf {p q : Platform} (h : SamePlacesAndTables p.slots q.slots) (hp : platformWf p) :
    platformWf q := by
  obtain ⟨hbase, htable⟩ := h
  rw [platformWf_iff_places_tables] at hp ⊢
  rwa [hbase, htable]

/-- Settles O58: an event changes neither the places nor the tables of the instances, and the invariant depends on these alone. -/
theorem platformStepKeepsWf : Obligations.PlatformStepKeepsWf := by
  intro p q hp h
  have hsame := platformStep_samePlacesAndTables h
  exact ⟨hsame.keeps_platformWf hp, hsame⟩

end Sys2Proof.Machine
end

section
/-! What a command that goes on leaves behind: the code of a failing check, or its one effect. One lemma for all nine commands,
which the proofs about frames, CTRL and invariants cite. -/

namespace Sys2Proof.Machine

variable {s t : State}

theorem length_pairDigits : ∀ ds : List (BitVec 4), (pairDigits ds).length = ds.length / 2
  | [] | [_] => by simp [pairDigits]
  | _ :: _ :: rest => by
    simp only [pairDigits, List.length_cons, length_pairDigits rest]
    omega

/-- What a scan does at its first position (R196): it ends in BadChar, stops there, or ends as the scan of the rest does. -/
theorem scanDigits_succ_cases (txt : ByteReg 16) (textLength count position : Nat) :
    scanDigits txt textLength (count + 1) position = .badChar ∨
    (position < textLength ∧ txt.byte position = none ∧
      scanDigits txt textLength (count + 1) position = .unwritten position) ∨
    (∃ d ds, scanDigits txt textLength count (position + 1) = .digits ds ∧
      scanDigits txt textLength (count + 1) position = .digits (d :: ds)) ∨
    (∃ p, scanDigits txt textLength count (position + 1) = .unwritten p ∧
      scanDigits txt textLength (count + 1) position = .unwritten p) := by
  by_cases hend : textLength ≤ position
  · simp [scanDigits, hend]
  cases hbyte : txt.byte position with
  | none => simp [scanDigits, hend, hbyte, Nat.lt_of_not_le hend]
  | some c =>
    cases hdigit : hexval c with
    | none => simp [scanDigits, hend, hbyte, hdigit]
    | some d => cases hrest : scanDigits txt textLength count (position + 1) <;> simp [scanDigits, hend, hbyte, hdigit, hrest]

/-- A scan that meets no bad character yields one digit per position. -/
theorem length_of_scanDigits {txt : ByteReg 16} {textLength count position : Nat} {ds : List (BitVec 4)}
    (h : scanDigits txt textLength count position = .digits ds) : ds.length = count := by
  induction count generalizing position ds with
  | zero =>
    cases h
    rfl
  | succ count ih =>
    obtain hscan | ⟨-, -, hscan⟩ | ⟨d, ds', hrest, hscan⟩ | ⟨p, -, hscan⟩ :=
      scanDigits_succ_cases txt textLength count position <;> cases hscan.symm.trans h
    rw [List.length_cons, ih hrest]

/-- A scan stops at an unwritten character of the text. -/
theorem unwritten_of_scanDigits {txt : ByteReg 16} {textLength count position p : Nat}
    (h : scanDigits txt textLength count position = .unwritten p) : p < textLength ∧ txt.byte p = none := by
  induction count generalizing position with
  | zero => cases h
  | succ count ih =>
    obtain hscan | ⟨hlt, hnone, hscan⟩ | ⟨d, ds', -, hscan⟩ | ⟨p, hrest, hscan⟩ :=
      scanDigits_succ_cases txt textLength count position <;> cases hscan.symm.trans h
    · exact ⟨hlt, hnone⟩
    · exact ih hrest

/-- `t` is `s` with the code of an error. -/
def RaisesError (s t : State) : Prop := ∃ c, c ≠ .ok ∧ t = s.setStatus c

theorem raisesError_setStatus {c : Code} (hc : c ≠ .ok := by decide) : RaisesError s (s.setStatus c) := ⟨c, hc, rfl⟩

/-- `t` is `s` with `k` bytes stored in DST and the code OK. -/
def StoresDst (k : Nat) (s t : State) : Prop :=
  ∃ bs : List Byte, bs.length = k ∧ t = (s.storeDst bs).setStatus .ok

/-- `t` is `s` with a new ring value in KC, `k` bytes stored in DST and the code OK. -/
def StoresCursorAndDst (k : Nat) (s t : State) : Prop :=
  ∃ (v : Ring) (bs : List Byte), bs.length = k ∧ t = ((s.storeCursor v).storeDst bs).setStatus .ok

/-- What each command does to the state when its checks pass and its operands are written: which registers it writes, and how
much of DST. -/
def CommandEffect (i : Instr) (s t : State) : Prop :=
  match i with
  | .sbox _ => StoresDst 1 s t
  | .kcload => ∃ k : Vector Byte 8,
      t = ((s.setKc (s.kc.store 0 k.toList)).setCtrl { s.ctrl with kcV := true }).setStatus .ok
  | .kcdraw _ _ => StoresCursorAndDst 1 s t
  | .gfun => StoresDst 2 s t
  | .ffun _ _ => StoresCursorAndDst 4 s t
  | .round _ _ => StoresCursorAndDst 8 s t
  | .cipher _ => StoresDst 8 s.discardEngine t
  | .hexdec n => StoresDst n.toNat s t
  | .hexenc n => ∃ bs : List Byte,
      t = ((s.setTxt (s.txt.store 0 bs)).setCtrl { s.ctrl with txtLen := BitVec.ofNat 5 (2 * n.toNat) }).setStatus .ok

/-- A command that goes on has raised an error, or has had its effect. -/
theorem exec_eq_next_cases {i : Instr} (h : exec i s = .next t) : RaisesError s t ∨ CommandEffect i s t := by
  cases i with
  | sbox =>
    obtain ⟨-, rfl⟩ | ⟨-, rfl⟩ := execSbox_eq_next.1 h
    exacts [.inl raisesError_setStatus, .inr ⟨_, rfl, rfl⟩]
  | kcload =>
    obtain ⟨-, rfl⟩ | ⟨-, k, -, rfl⟩ := execKcload_eq_next.1 h
    exacts [.inl raisesError_setStatus, .inr ⟨k, rfl⟩]
  | kcdraw =>
    obtain ⟨-, rfl⟩ | ⟨-, -, rfl⟩ | ⟨-, -, _, -, rfl⟩ := execKcdraw_eq_next.1 h
    exacts [.inl raisesError_setStatus, .inl raisesError_setStatus, .inr ⟨_, _, rfl, rfl⟩]
  | gfun =>
    obtain ⟨-, rfl⟩ | ⟨-, -, rfl⟩ | ⟨-, -, _, -, rfl⟩ := execGfun_eq_next.1 h
    exacts [.inl raisesError_setStatus, .inl raisesError_setStatus, .inr ⟨_, rfl, rfl⟩]
  | ffun =>
    obtain ⟨-, rfl⟩ | ⟨-, -, rfl⟩ | ⟨-, -, -, rfl⟩ | ⟨-, -, -, _, -, _, -, _, -, rfl⟩ := execFfun_eq_next.1 h
    exacts [.inl raisesError_setStatus, .inl raisesError_setStatus, .inl raisesError_setStatus, .inr ⟨_, _, rfl, rfl⟩]
  | round =>
    obtain ⟨-, rfl⟩ | ⟨-, -, rfl⟩ | ⟨-, -, -, rfl⟩ | ⟨-, -, -, _, -, _, -, _, -, rfl⟩ := execRound_eq_next.1 h
    exacts [.inl raisesError_setStatus, .inl raisesError_setStatus, .inl raisesError_setStatus,
      .inr ⟨_, _, Vector.length_toList, rfl⟩]
  | cipher =>
    obtain ⟨-, rfl⟩ | ⟨-, -, rfl⟩ | ⟨-, -, -, rfl⟩ | ⟨-, -, -, _, -, _, -, rfl⟩ := execCipher_eq_next.1 h
    exacts [.inl raisesError_setStatus, .inl raisesError_setStatus, .inl raisesError_setStatus,
      .inr ⟨_, Vector.length_toList, rfl⟩]
  | hexdec =>
    obtain ⟨-, rfl⟩ | ⟨-, -, rfl⟩ | ⟨-, -, ⟨-, rfl⟩ | ⟨_, hds, rfl⟩⟩ := execHexdec_eq_next.1 h
    exacts [.inl raisesError_setStatus, .inl raisesError_setStatus, .inl raisesError_setStatus,
      .inr ⟨_, by rw [length_pairDigits, length_of_scanDigits hds]; omega, rfl⟩]
  | hexenc =>
    obtain ⟨-, rfl⟩ | ⟨-, -, rfl⟩ | ⟨-, -, _, -, rfl⟩ := execHexenc_eq_next.1 h
    exacts [.inl raisesError_setStatus, .inl raisesError_setStatus, .inr ⟨_, rfl⟩]

end Sys2Proof.Machine
end

section
/-! Invariants of the machine: a property that each operation of the port keeps is kept by every step. -/

namespace Sys2Proof.Machine

variable {P : State → Prop} {s t : State} {w : Word32}

/-- The operations that a host access is made of keep `P`. -/
structure PortInvariant (P : State → Prop) : Prop where
  exec : ∀ {i s t}, P s → exec i s = .next t → P t
  setStatus : ∀ {s} c, P s → P (s.setStatus c)
  observe : ∀ {s} o, P s → P (s.observe o)
  setCtrl : ∀ {s} w, P s → P (s.setCtrl (s.ctrl.write w))
  storeSrc : ∀ {s} base bs, P s → P (s.setSrc (s.src.store base bs))
  storeKey : ∀ {s} base bs, P s → P (s.setKey (s.key.store base bs))
  storeTxt : ∀ {s} base bs, P s → P (s.setTxt (s.txt.store base bs))
  setPending : ∀ {s} l, P s → P (s.setPending l)

theorem PortInvariant.issueCommand (hP : PortInvariant P) (hs : P s) (h : issueCommand w s = .next t) : P t := by
  obtain ⟨_, -, rfl⟩ | ⟨i, u, -, hu, rfl⟩ := issueCommand_eq_next.1 h
  · exact hP.observe _ (hP.setStatus _ hs)
  · exact hP.observe _ (hP.exec hs hu)

theorem PortInvariant.portWrite {offset : Nat} (hP : PortInvariant P) (hs : P s) (h : portWrite offset w s = .next t) :
    P t := by
  by_cases hcmd : offset = 0x00
  · subst hcmd
    exact hP.issueCommand hs h
  · obtain ⟨u, hu, hcases⟩ := portWrite_of_ne_cmd (s := s) (w := w) hcmd
    obtain rfl : u = t := by simpa [hu] using h
    obtain rfl | rfl | ⟨j, rfl⟩ | ⟨j, rfl⟩ | ⟨j, rfl⟩ := hcases
    · exact hs
    · exact hP.setCtrl w hs
    · exact hP.storeSrc _ _ hs
    · exact hP.storeKey _ _ hs
    · exact hP.storeTxt _ _ hs

/-- A read or a write at the port keeps `P`. -/
theorem PortInvariant.hostEvent {e : HostEvent} (hP : PortInvariant P) (he : e.isAccess = true) (hs : P s)
    (h : hostEvent e s = .next t) : P t := by
  cases e with
  | read =>
    obtain ⟨-, _, -, rfl⟩ := hostRead_eq_next.1 h
    exact hP.observe _ hs
  | write => exact hP.portWrite hs (hostWrite_eq_next.1 h).2
  | reset => cases he
  | resetDuring => cases he

theorem PortInvariant.step_of_access {e : HostEvent} {rest : List HostEvent} (hP : PortInvariant P)
    (hpending : s.pending = e :: rest) (he : e.isAccess = true) (hs : P s) (h : step s = .next t) : P t := by
  rw [step_of_cons hpending] at h
  exact hP.hostEvent he (hP.setPending rest hs) h

/-- What reset establishes, and the operations that a host access is made of keep, every step keeps. -/
theorem PortInvariant.step (hP : PortInvariant P) (hreset : ∀ s : State, P s.hardReset) (hs : P s)
    (h : step s = .next t) : P t := by
  obtain ⟨-, hidle⟩ | ⟨e, rest, -, hstep⟩ := step_cases s
  · obtain rfl : s = t := by simpa [hidle] using h
    exact hs
  rw [hstep] at h
  have hs' := hP.setPending rest hs
  cases e with
  | read => exact hP.hostEvent rfl hs' h
  | write => exact hP.hostEvent rfl hs' h
  | reset =>
    cases h
    exact hreset _
  | resetDuring =>
    obtain ⟨-, hcommand⟩ | ⟨-, _, -, rfl⟩ := resetDuring_eq_next.1 h
    · exact hP.issueCommand (hreset _) hcommand
    · exact hreset _

end Sys2Proof.Machine
end

section
/-! The invariant of the cursor (R22, R33): where KC_V is 1, every byte of KC is written. -/

namespace Sys2Proof.Machine

variable {s t : State}

/-- A register into which as many bytes are stored as it has is written. -/
theorem written_store {n : Nat} (v : ByteReg n) {bs : List Byte} (h : bs.length = n) : Written (v.store 0 bs) n := by
  intro i hi
  rw [ByteReg.byte_store, if_pos ⟨by omega, by omega, hi⟩]
  simp [h, hi]

theorem CommandEffect.cursorLoaded {i : Instr} (h : CommandEffect i s t) (hs : CursorLoaded s) : CursorLoaded t := by
  cases i with
  | sbox | gfun | hexdec | cipher =>
    obtain ⟨_, -, rfl⟩ := h
    exact hs
  | kcdraw | ffun | round =>
    obtain ⟨_, _, -, rfl⟩ := h
    exact fun _ => written_store s.kc rfl
  | kcload =>
    obtain ⟨_, rfl⟩ := h
    exact fun _ => written_store s.kc Vector.length_toList
  | hexenc =>
    obtain ⟨_, rfl⟩ := h
    exact hs

theorem cursorLoaded_portInvariant : PortInvariant CursorLoaded where
  exec hs h := by
    obtain ⟨_, -, rfl⟩ | heffect := exec_eq_next_cases h
    · exact hs
    · exact heffect.cursorLoaded hs
  setStatus _ := id
  observe _ := id
  setCtrl _ := id
  storeSrc _ _ := id
  storeKey _ _ := id
  storeTxt _ _ := id
  setPending _ := id

/-- Settles O52: a command that writes KC writes all of it, a host write leaves KC and KC_V alone, and a reset clears KC_V. -/
theorem stepKeepsCursorLoaded : Obligations.StepKeepsCursorLoaded := by
  intro s t hs h
  exact cursorLoaded_portInvariant.step (fun _ => nofun) hs h

end Sys2Proof.Machine
end

section
/-! The substitution ROM along a step (R21). -/

namespace Sys2Proof.Machine

theorem sbox_of_hostEvent {s t : State} {e : HostEvent} (h : hostEvent e s = .next t) : t.sbox = s.sbox := by
  cases e with
  | read => exact sbox_of_hostRead h
  | write => exact sbox_of_hostWrite h
  | reset =>
    cases h
    rfl
  | resetDuring =>
    obtain ⟨-, hcommand⟩ | ⟨-, _, hcommand, rfl⟩ := resetDuring_eq_next.1 h
    · simpa using sbox_of_issueCommand hcommand
    · simpa using sbox_of_issueCommand hcommand

/-- Settles O54: no event at the port writes the ROM. -/
theorem stepKeepsSubstitutionTable : Obligations.StepKeepsSubstitutionTable := by
  intro s t h
  obtain ⟨-, hidle⟩ | ⟨e, rest, -, hstep⟩ := step_cases s
  · obtain rfl : s = t := by simpa [hidle] using h
    rfl
  · rw [hstep] at h
    simpa using sbox_of_hostEvent h

end Sys2Proof.Machine
end

section
/-! Written bytes (R39): storing never makes a byte unwritten, so no host access takes a byte's value away. -/

namespace Sys2Proof.Machine

variable {s t u : State}

/-- Every byte that is written in `v` is written in `w`. -/
def ByteReg.Keeps {n : Nat} (v w : ByteReg n) : Prop := ∀ i, v.byte i ≠ none → w.byte i ≠ none

theorem ByteReg.Keeps.refl {n : Nat} (v : ByteReg n) : v.Keeps v := fun _ h => h

theorem ByteReg.keeps_store {n : Nat} (v : ByteReg n) (base : Nat) (bs : List Byte) : v.Keeps (v.store base bs) :=
  v.byte_store_ne_none base bs

/-- A state keeps what is written if each of its registers does; a register that is left alone need not be named. -/
theorem keepsWritten_of_registers
    (src : s.src.Keeps t.src := by exact ByteReg.Keeps.refl _) (key : s.key.Keeps t.key := by exact ByteReg.Keeps.refl _)
    (dst : s.dst.Keeps t.dst := by exact ByteReg.Keeps.refl _) (txt : s.txt.Keeps t.txt := by exact ByteReg.Keeps.refl _)
    (kc : s.kc.Keeps t.kc := by exact ByteReg.Keeps.refl _) : KeepsWritten s t
  | .src => src
  | .key => key
  | .dst => dst
  | .txt => txt
  | .kc => kc

theorem KeepsWritten.trans (hst : KeepsWritten s t) (htu : KeepsWritten t u) : KeepsWritten s u :=
  fun r i h => htu r i (hst r i h)

theorem CommandEffect.keepsWritten {i : Instr} (h : CommandEffect i s t) : KeepsWritten s t := by
  cases i with
  | sbox | gfun | hexdec | cipher =>
    obtain ⟨_, -, rfl⟩ := h
    exact keepsWritten_of_registers (dst := s.dst.keeps_store _ _)
  | kcdraw | ffun | round =>
    obtain ⟨_, _, -, rfl⟩ := h
    exact keepsWritten_of_registers (dst := s.dst.keeps_store _ _) (kc := s.kc.keeps_store _ _)
  | kcload =>
    obtain ⟨_, rfl⟩ := h
    exact keepsWritten_of_registers (kc := s.kc.keeps_store _ _)
  | hexenc =>
    obtain ⟨_, rfl⟩ := h
    exact keepsWritten_of_registers (txt := s.txt.keeps_store _ _)

theorem keepsWritten_portInvariant (s : State) : PortInvariant (KeepsWritten s) where
  exec hs h := by
    obtain ⟨_, -, rfl⟩ | heffect := exec_eq_next_cases h
    · exact hs
    · exact hs.trans heffect.keepsWritten
  setStatus _ := id
  observe _ := id
  setCtrl _ := id
  storeSrc _ _ hs := hs.trans (keepsWritten_of_registers (src := ByteReg.keeps_store _ _ _))
  storeKey _ _ hs := hs.trans (keepsWritten_of_registers (key := ByteReg.keeps_store _ _ _))
  storeTxt _ _ hs := hs.trans (keepsWritten_of_registers (txt := ByteReg.keeps_store _ _ _))
  setPending _ := id

/-- Settles O55: every register update of a host access is a store. -/
theorem writtenBytesStayWritten : Obligations.WrittenBytesStayWritten := by
  intro s t e rest hpending he h
  exact (keepsWritten_portInvariant s).step_of_access hpending he keepsWritten_of_registers h

end Sys2Proof.Machine
end

section
/-! What the commands leave alone (R34, R37): the registers, the bytes of DST and the fields of CTRL that no command writes. -/

namespace Sys2Proof.Machine

variable {s t : State} {k : Nat}

/-- All of the state but DST and STATUS, and DST's bytes from `k` on, are as before. -/
def DstFrame (k : Nat) (s t : State) : Prop :=
  t = { s with dst := t.dst, status := t.status } ∧ ∀ j, k ≤ j → t.dst.byte j = s.dst.byte j

/-- All of the state but KC, DST and STATUS, and DST's bytes from `k` on, are as before. -/
def CursorFrame (k : Nat) (s t : State) : Prop :=
  t = { s with kc := t.kc, dst := t.dst, status := t.status } ∧ ∀ j, k ≤ j → t.dst.byte j = s.dst.byte j

theorem dstFrame_of_storesDst (h : RaisesError s t ∨ StoresDst k s t) : DstFrame k s t := by
  obtain ⟨_, -, rfl⟩ | ⟨bs, hlen, rfl⟩ := h
  · exact ⟨rfl, fun _ _ => rfl⟩
  · exact ⟨rfl, fun j hj => s.dst.byte_store_of_le bs j (hlen.trans_le hj)⟩

theorem cursorFrame_of_storesCursorAndDst (h : RaisesError s t ∨ StoresCursorAndDst k s t) : CursorFrame k s t := by
  obtain ⟨_, -, rfl⟩ | ⟨_, bs, hlen, rfl⟩ := h
  · exact ⟨rfl, fun _ _ => rfl⟩
  · exact ⟨rfl, fun j hj => s.dst.byte_store_of_le bs j (hlen.trans_le hj)⟩

/-- Settles O48: each of the three only stores its result bytes in DST. -/
theorem dstCommandsFrame : Obligations.DstCommandsFrame := fun _ _ =>
  ⟨fun _ h => dstFrame_of_storesDst (exec_eq_next_cases h), fun h => dstFrame_of_storesDst (exec_eq_next_cases h),
    fun _ h => dstFrame_of_storesDst (exec_eq_next_cases h)⟩

/-- Settles O49: each of the three only turns the cursor and stores its result bytes in DST. -/
theorem cursorCommandsFrame : Obligations.CursorCommandsFrame := fun _ _ _ =>
  ⟨fun _ h => cursorFrame_of_storesCursorAndDst (exec_eq_next_cases h),
    fun _ h => cursorFrame_of_storesCursorAndDst (exec_eq_next_cases h),
    fun _ h => cursorFrame_of_storesCursorAndDst (exec_eq_next_cases h)⟩

end Sys2Proof.Machine
end

section
/-! CTRL under the commands (R34). -/

namespace Sys2Proof.Machine

variable {s t : State} {i : Instr}

/-- CTRL after a command that succeeds (R34). -/
def ctrlAfter (i : Instr) (c : Ctrl) : Ctrl :=
  match i with
  | .kcload => { c with kcV := true }
  | .hexenc n => { c with txtLen := BitVec.ofNat 5 (2 * n.toNat) }
  | _ => c

theorem CommandEffect.ctrl_eq (h : CommandEffect i s t) : t.ctrl = ctrlAfter i s.ctrl := by
  cases i with
  | sbox | gfun | hexdec | cipher =>
    obtain ⟨_, -, rfl⟩ := h
    rfl
  | kcload | hexenc =>
    obtain ⟨_, rfl⟩ := h
    rfl
  | kcdraw | ffun | round =>
    obtain ⟨_, _, -, rfl⟩ := h
    rfl

theorem kcV_ctrlAfter_of_ne (h : i ≠ .kcload) (c : Ctrl) : (ctrlAfter i c).kcV = c.kcV := by
  cases i with
  | kcload => exact absurd rfl h
  | _ => rfl

theorem txtLen_ctrlAfter_of_ne (h : ∀ n, i ≠ .hexenc n) (c : Ctrl) : (ctrlAfter i c).txtLen = c.txtLen := by
  cases i with
  | hexenc n => exact absurd rfl (h n)
  | _ => rfl

/-- Every field of CTRL but KC_V and TXT_LEN keeps its value. -/
theorem ctrlAfter_frame (i : Instr) (c : Ctrl) :
    ctrlAfter i c = { c with kcV := (ctrlAfter i c).kcV, txtLen := (ctrlAfter i c).txtLen } := by
  cases i <;> rfl

theorem kcV_ctrlAfter {c : Ctrl} (h : c.kcV = true) : (ctrlAfter i c).kcV = true := by
  cases i with
  | kcload => rfl
  | _ => exact h

/-- A command that goes on leaves CTRL alone under an error code, or changes it as its success does. -/
theorem ctrl_of_exec (h : exec i s = .next t) :
    (t.status ≠ .ok ∧ t.ctrl = s.ctrl) ∨ t.ctrl = ctrlAfter i s.ctrl := by
  obtain ⟨c, hc, rfl⟩ | heffect := exec_eq_next_cases h
  · exact .inl ⟨hc, rfl⟩
  · exact .inr heffect.ctrl_eq

theorem kcV_of_exec (h : exec i s = .next t) (hs : s.ctrl.kcV = true) : t.ctrl.kcV = true := by
  obtain ⟨-, hctrl⟩ | hctrl := ctrl_of_exec h
  · rw [hctrl, hs]
  · rw [hctrl]
    exact kcV_ctrlAfter hs

theorem kcV_portInvariant : PortInvariant (fun s => s.ctrl.kcV = true) where
  exec hs h := kcV_of_exec h hs
  setStatus _ := id
  observe _ := id
  setCtrl _ := id
  storeSrc _ _ := id
  storeKey _ _ := id
  storeTxt _ _ := id
  setPending _ := id

/-- Settles O51: an error leaves CTRL alone, success writes KC_V or TXT_LEN at most, and a host access keeps KC_V. -/
theorem commandsWriteTwoCtrlFieldsOnly : Obligations.CommandsWriteTwoCtrlFieldsOnly := by
  refine ⟨fun i s t h => ?_, fun s t e rest hpending h hs ht => ?_⟩
  · obtain ⟨hstatus, hctrl⟩ | hctrl := ctrl_of_exec h
    · simp [hctrl, hstatus]
    · rw [hctrl]
      refine ⟨ctrlAfter_frame i _, kcV_ctrlAfter, ?_, fun hi => kcV_ctrlAfter_of_ne hi _, ?_,
        fun hi => txtLen_ctrlAfter_of_ne hi _⟩
      · rintro rfl -
        rfl
      · rintro n rfl -
        have := n.isLt
        simp only [ctrlAfter, BitVec.toNat_ofNat]
        omega
  · cases e with
    | read | write => simp [kcV_portInvariant.step_of_access hpending rfl hs h] at ht
    | reset => exact .inl rfl
    | resetDuring w => exact .inr ⟨w, rfl⟩

end Sys2Proof.Machine
end

section
/-! The commands do not read STATUS (R42). -/

namespace Sys2Proof.Machine

/-- Settles O25: each command reads other registers only, and every state it answers has a code of its own in STATUS. -/
theorem statusNeverInfluencesCommands : Obligations.StatusNeverInfluencesCommands := by
  intro i s c
  cases i <;> rfl

end Sys2Proof.Machine
end

section
/-! One admitted access as a step (R31, R61), and what the host reads from and writes to the words of the port. -/

namespace Sys2Proof.Machine

variable {s : State} {w : Word32} {offset : Nat} {rest : List HostEvent}

theorem step_of_read (h : s.pending = .read 32 offset :: rest) (hoffset : accessDefect 32 offset = none) :
    step s = orFault (portRead offset s) fun v => .next ((s.setPending rest).observe (.readValue offset v)) := by
  rw [step_of_cons h, hostEvent, hostRead, hoffset]
  rfl

theorem step_of_write (h : s.pending = .write 32 offset w :: rest) (hoffset : accessDefect 32 offset = none) :
    step s = portWrite offset w (s.setPending rest) := by
  rw [step_of_cons h, hostEvent, hostWrite, hoffset]

/-- Settles O6: the write of a word that decodes is its `exec`, and the host then sees the code. -/
theorem stepRunsIssuedCommand : Obligations.StepRunsIssuedCommand := by
  intro s w rest i h hw
  have hcmd : step s = issueCommand w (s.setPending rest) := step_of_write h rfl
  rw [hcmd, issueCommand, hw]
  rfl

/-- The codes' numbers (R210) under the zeros of bits 31:4 (R32). -/
theorem statusWord_eq_number (c : Code) : statusWord c =
    match c with
    | .ok => 0#32 | .badBuffer => 1#32 | .badSize => 2#32 | .badChar => 3#32
    | .badKey => 4#32 | .badSourceBlock => 5#32 | .badDestBlock => 6#32 | .badCommand => 7#32 := by
  cases c <;> rfl

/-- Settles O10: each access is the port's answer for its word. -/
theorem readOnlyWordsIgnoreWrites : Obligations.ReadOnlyWordsIgnoreWrites := by
  intro s w rest
  refine ⟨fun h => step_of_read h rfl, fun h => ?_, fun h => step_of_write h rfl, fun h => step_of_write h rfl,
    fun h => step_of_write h rfl⟩
  have hread : portRead 0x04 s = .ok (statusWord s.status) := rfl
  rw [step_of_read h rfl, hread, statusWord_eq_number]
  rfl

/-- A data word holds four bytes of one register (R30, R64). -/
theorem portRead_dataWord {r : DataReg} {j : Nat} (h : (offset, r, j) ∈ dataWords) (s : State) :
    ∃ (n : Nat) (v : ByteReg n), portRead offset s = readWord r v j ∧ s.dataByte r = v.byte := by
  simp only [dataWords, List.mem_cons, Prod.mk.injEq, List.not_mem_nil, or_false] at h
  obtain ⟨rfl, rfl, rfl⟩ | ⟨rfl, rfl, rfl⟩ | ⟨rfl, rfl, rfl⟩ | ⟨rfl, rfl, rfl⟩ | ⟨rfl, rfl, rfl⟩ | ⟨rfl, rfl, rfl⟩ |
    ⟨rfl, rfl, rfl⟩ | ⟨rfl, rfl, rfl⟩ | ⟨rfl, rfl, rfl⟩ | ⟨rfl, rfl, rfl⟩ := h <;> exact ⟨_, _, rfl, rfl⟩

theorem accessDefect_dataWord {r : DataReg} {j : Nat} (h : (offset, r, j) ∈ dataWords) :
    accessDefect 32 offset = none := by
  have hall : ∀ d ∈ dataWords, accessDefect 32 d.1 = none := by decide
  exact hall _ h

/-- A read over an unwritten byte names one (R39). -/
theorem readBytes_of_unwritten {n base k e : Nat} {r : DataReg} {v : ByteReg n} (he : e < k) (h : v.byte (base + e) = none) :
    ∃ e' < k, v.byte (base + e') = none ∧ readBytes r v base k = .error (.unwrittenRead r (base + e')) := by
  obtain ⟨b, -, hb⟩ | ⟨e', hread, hbase, hlt, hnone⟩ := readBytes_cases r v base k
  · have := hb ⟨e, he⟩
    simp [h] at this
  · obtain ⟨d, rfl⟩ := Nat.exists_eq_add_of_le hbase
    exact ⟨d, by omega, hnone, hread⟩

/-- Settles O14: a word of which a byte is unwritten is not packed. -/
theorem unwrittenDataWordReadFaults : Obligations.UnwrittenDataWordReadFaults := by
  intro s offset r j rest hword ⟨e, he, hnone⟩ hpending
  obtain ⟨n, v, hread, hbyte⟩ := portRead_dataWord hword s
  rw [hbyte] at hnone ⊢
  obtain ⟨k, hk, hkNone, herror⟩ := readBytes_of_unwritten (r := r) he hnone
  refine ⟨k, hk, hkNone, ?_⟩
  rw [step_of_read hpending (accessDefect_dataWord hword), hread, readWord, herror]
  rfl

end Sys2Proof.Machine
end

section
/-! Where a command stops (R39, R215): at an unwritten byte of an operand, and nowhere else. -/

namespace Sys2Proof.Machine

variable {s : State}

theorem legalLength_iff {n : Nat} : legalLength n = true ↔ 1 ≤ n ∧ n ≤ 8 := by
  simp [legalLength]

theorem Ctrl.srcOK_iff {c : Ctrl} : c.srcOK = true ↔ c.srcV = true ∧ c.srcLen = 8#4 := by
  simp [Ctrl.srcOK]

theorem Ctrl.keyOK_iff {c : Ctrl} : c.keyOK = true ↔ c.keyV = true ∧ c.keyLen = 8#4 := by
  simp [Ctrl.keyOK]

/-- `r` is no refusal, and if it is a fault, then at a byte that exists and is unwritten in `s`, not of DST. -/
def StopsOnUnwritten (s : State) (r : StepResult) : Prop :=
  (∀ x, r ≠ .refused x) ∧
  ∀ f, r = .fault f → ∃ reg k, f = .unwrittenRead reg k ∧ reg ≠ .dst ∧ k < regSize reg ∧ s.dataByte reg k = none

namespace StopsOnUnwritten

theorem of_next (t : State) : StopsOnUnwritten s (.next t) := ⟨nofun, nofun⟩

theorem of_fault {reg : DataReg} {k : Nat} (hreg : reg ≠ .dst) (hk : k < regSize reg) (hnone : s.dataByte reg k = none) :
    StopsOnUnwritten s (.fault (.unwrittenRead reg k)) := by
  refine ⟨nofun, ?_⟩
  rintro _ ⟨⟩
  exact ⟨reg, k, rfl, hreg, hk, hnone⟩

theorem of_guarded {checks : List (Code × Bool)} {effect : StepResult}
    (h : firstError checks = none → StopsOnUnwritten s effect) : StopsOnUnwritten s (guarded checks s effect) := by
  obtain ⟨c, -, heq⟩ | ⟨hpassed, heq⟩ := guarded_cases checks s effect
  · rw [heq]
    exact of_next _
  · rw [heq]
    exact h hpassed

theorem of_readBytes {n k : Nat} {reg : DataReg} {v : ByteReg n} {effect : Vector Byte k → StepResult}
    (hv : s.dataByte reg = v.byte) (hreg : reg ≠ .dst) (hk : k ≤ regSize reg) (h : ∀ b, StopsOnUnwritten s (effect b)) :
    StopsOnUnwritten s (orFault (readBytes reg v 0 k) effect) := by
  obtain ⟨b, hread, -⟩ | ⟨e, hread, -, hlt, hnone⟩ := readBytes_cases reg v 0 k
  · rw [hread]
    exact h b
  · rw [hread]
    exact of_fault hreg (by omega) (hv ▸ hnone)

theorem of_readCursor {effect : Ring → StepResult} (h : ∀ v, StopsOnUnwritten s (effect v)) :
    StopsOnUnwritten s (orFault (readCursor s) effect) := by
  cases hread : readCursor s with
  | ok v => exact h v
  | error f =>
    obtain ⟨e, hlt, rfl, hnone⟩ := readCursor_eq_error hread
    exact of_fault nofun hlt hnone

end StopsOnUnwritten

open StopsOnUnwritten in
theorem stopsOnUnwritten_exec (i : Instr) (s : State) : StopsOnUnwritten s (exec i s) := by
  cases i with
  | sbox => exact of_guarded fun _ => of_next _
  | kcload => exact of_guarded fun _ => of_readBytes rfl nofun le_rfl fun _ => of_next _
  | kcdraw => exact of_guarded fun _ => of_readCursor fun _ => of_next _
  | gfun => exact of_guarded fun _ => of_readBytes rfl nofun (by decide) fun _ => of_next _
  | ffun => exact of_guarded fun _ => of_readBytes rfl nofun (by decide) fun _ => of_readCursor fun _ => of_next _
  | round => exact of_guarded fun _ => of_readBytes rfl nofun le_rfl fun _ => of_readCursor fun _ => of_next _
  | cipher => exact of_guarded fun _ => of_readBytes rfl nofun le_rfl fun _ => of_readBytes rfl nofun le_rfl fun _ => of_next _
  | hexdec n =>
    refine of_guarded fun _ => ?_
    cases hscan : scanDigits s.txt s.ctrl.textLength (2 * n.toNat) 0 with
    | digits => exact of_next _
    | badChar => exact of_next _
    | unwritten p =>
      obtain ⟨hp, hnone⟩ := unwritten_of_scanDigits hscan
      exact of_fault nofun (hp.trans_le (Nat.min_le_right _ _)) hnone
  | hexenc n =>
    refine of_guarded fun hpassed => of_readBytes rfl nofun ?_ fun _ => of_next _
    cases hlen : legalLength n.toNat with
    | false => simp [hlen] at hpassed
    | true => exact (legalLength_iff.1 hlen).2

/-- Settles O22, by the operations that each command is made of. -/
theorem commandsFaultOnlyOnUnwrittenBytes : Obligations.CommandsFaultOnlyOnUnwrittenBytes :=
  stopsOnUnwritten_exec

/-- A read from byte 0 on over a register that is not written faults at an unwritten byte of the range. -/
theorem orFault_readBytes_of_not_written {n k : Nat} {reg : DataReg} {v : ByteReg n} {effect : Vector Byte k → StepResult}
    (hv : s.dataByte reg = v.byte) (h : ¬ Written v k) :
    ∃ e < k, s.dataByte reg e = none ∧ orFault (readBytes reg v 0 k) effect = .fault (.unwrittenRead reg e) := by
  simp only [Written, not_forall, not_not] at h
  obtain ⟨e, he, hnone⟩ := h
  rw [← Nat.zero_add e] at hnone
  obtain ⟨e', he', hnone', hread⟩ := readBytes_of_unwritten (r := reg) he hnone
  rw [Nat.zero_add] at hnone' hread
  exact ⟨e', he', hv ▸ hnone', by rw [hread, orFault_error]⟩

/-- A written range reads. -/
theorem readBytes_of_written {n k : Nat} {reg : DataReg} {v : ByteReg n} (h : Written v k) :
    ∃ b : Vector Byte k, readBytes reg v 0 k = .ok b := by
  obtain ⟨b, hread, -⟩ | ⟨e, -, -, hlt, hnone⟩ := readBytes_cases reg v 0 k
  · exact ⟨b, hread⟩
  · exact absurd hnone (h e (by omega))

/-- Settles O23: the checks pass, and the first read of the effect meets the unwritten byte. -/
theorem unwrittenOperandsFault : Obligations.UnwrittenOperandsFault := by
  intro s m r n
  simp only [← Ctrl.srcOK_iff, ← Ctrl.keyOK_iff]
  refine ⟨fun hkey h => ?_, fun hsrc hdst h => ?_, fun hsrc hkc hdst h => ?_, fun hsrc hkc hdst h => ?_,
    fun hsrc hkey hdst h => ?_, fun hsrc hkey hdst hw h => ?_, fun h1 h8 hsrc htxt h => ?_⟩
  · rw [exec, execKcload, guarded_of_passed (by simp [hkey])]
    exact orFault_readBytes_of_not_written rfl h
  · rw [exec, execGfun, guarded_of_passed (by simp [hsrc, Ctrl.dstOK, hdst])]
    exact orFault_readBytes_of_not_written rfl h
  · rw [exec, execFfun, guarded_of_passed (by simp [hsrc, Ctrl.kcOK, hkc, Ctrl.dstOK, hdst])]
    exact orFault_readBytes_of_not_written rfl h
  · rw [exec, execRound, guarded_of_passed (by simp [hsrc, Ctrl.kcOK, hkc, Ctrl.dstOK, hdst])]
    exact orFault_readBytes_of_not_written rfl h
  · rw [exec, execCipher, guarded_of_passed (by simp [hsrc, hkey, Ctrl.dstOK, hdst])]
    exact orFault_readBytes_of_not_written rfl h
  · obtain ⟨b, hb⟩ := readBytes_of_written (reg := .src) hw
    rw [exec, execCipher, guarded_of_passed (by simp [hsrc, hkey, Ctrl.dstOK, hdst]), hb]
    exact orFault_readBytes_of_not_written rfl h
  · rw [exec, execHexenc, guarded_of_passed
      (by simp [legalLength_iff, h1, h8, Ctrl.srcPresent, Ctrl.txtPresent, hsrc, htxt])]
    exact orFault_readBytes_of_not_written rfl h

end Sys2Proof.Machine
end

section
/-! The word of CTRL (R33): where its fields stand, and what a host write leaves of it. -/

namespace Sys2Proof.Machine

theorem flagBit_getLsbD (b : Bool) : (flagBit b).getLsbD 0 = b := by
  cases b <;> rfl

/-- The bits of CTRL, from bit 0 up: a field, or a reserved bit that reads 0. -/
theorem Ctrl.getLsbD_word (c : Ctrl) {i : Nat} (hi : i < 32) : c.word.getLsbD i =
    if i < 1 then c.srcV else if i < 4 then false else if i < 8 then c.srcLen.getLsbD (i - 4)
    else if i < 9 then c.keyV else if i < 12 then false else if i < 16 then c.keyLen.getLsbD (i - 12)
    else if i < 17 then c.dstV else if i < 18 then c.txtV else if i < 24 then false
    else if i < 29 then c.txtLen.getLsbD (i - 24) else if i < 31 then false else c.kcV := by
  simp only [Ctrl.word, BitVec.getLsbD_append]
  interval_cases i <;> simp only [Nat.reduceSub, Nat.reduceLT, if_true, if_false, BitVec.getLsbD_zero, flagBit_getLsbD]

/-- A field of CTRL's word, bit by bit. -/
theorem Ctrl.extractLsb'_word {c : Ctrl} {start len : Nat} {field : BitVec len}
    (h : ∀ i < len, c.word.getLsbD (start + i) = field.getLsbD i) : c.word.extractLsb' start len = field := by
  apply BitVec.eq_of_getLsbD_eq
  intro i hi
  rw [BitVec.getLsbD_extractLsb', h i hi]
  simp [hi]

theorem Ctrl.word_fields (c : Ctrl) :
    c.word.getLsbD 0 = c.srcV ∧ c.word.extractLsb' 4 4 = c.srcLen ∧ c.word.getLsbD 8 = c.keyV ∧
    c.word.extractLsb' 12 4 = c.keyLen ∧ c.word.getLsbD 16 = c.dstV ∧ c.word.getLsbD 17 = c.txtV ∧
    c.word.extractLsb' 24 5 = c.txtLen ∧ c.word.getLsbD 31 = c.kcV := by
  refine ⟨c.getLsbD_word (by decide), Ctrl.extractLsb'_word ?_, c.getLsbD_word (by decide), Ctrl.extractLsb'_word ?_,
    c.getLsbD_word (by decide), c.getLsbD_word (by decide), Ctrl.extractLsb'_word ?_, c.getLsbD_word (by decide)⟩ <;>
    intro i hi <;> interval_cases i <;> exact c.getLsbD_word (by decide)

theorem Ctrl.word_reserved (c : Ctrl) : c.word &&& 0x60FC0E0E#32 = 0#32 := by
  apply BitVec.eq_of_getLsbD_eq
  intro i hi
  rw [BitVec.getLsbD_and, c.getLsbD_word hi]
  interval_cases i <;> simp

/-- A write replaces every field but KC_V. -/
theorem Ctrl.word_write (c : Ctrl) (w : Word32) :
    (c.write w).word = (w &&& 0x1F03F1F1#32) ||| (c.word &&& 0x80000000#32) := by
  apply BitVec.eq_of_getLsbD_eq
  intro i hi
  rw [BitVec.getLsbD_or, BitVec.getLsbD_and, BitVec.getLsbD_and, Ctrl.getLsbD_word _ hi, Ctrl.getLsbD_word _ hi]
  interval_cases i <;> simp [Ctrl.write]

/-- Settles O13: the fields of the word, and what the port answers at offset 0x08. -/
theorem ctrlWriteKeepsCursorValidBit : Obligations.CtrlWriteKeepsCursorValidBit := by
  refine ⟨fun c => ?_, fun s rest h => step_of_read h rfl, fun s w rest h => ⟨_, step_of_write h rfl, s.ctrl.word_write w⟩⟩
  obtain ⟨hsrcV, hsrcLen, hkeyV, hkeyLen, hdstV, htxtV, htxtLen, hkcV⟩ := c.word_fields
  exact ⟨hsrcV, hsrcLen, hkeyV, hkeyLen, hdstV, htxtV, htxtLen, hkcV, c.word_reserved⟩

end Sys2Proof.Machine
end

section
/-! Which accesses the port refuses (R61, R62): those that are not admitted, and no other, since no command is refused. -/

namespace Sys2Proof.Machine

variable {s : State} {w : Word32} {width offset : Nat}

theorem issueCommand_ne_refused (r : Refusal) : issueCommand w s ≠ .refused r := by
  unfold issueCommand
  cases decode w with
  | error => nofun
  | ok i =>
    cases hexec : exec i s with
    | next | fault => simp [hexec]
    | refused r' => exact absurd hexec ((stopsOnUnwritten_exec i s).1 r')

theorem portWrite_ne_refused (r : Refusal) : portWrite offset w s ≠ .refused r := by
  by_cases hcmd : offset = 0x00
  · subst hcmd
    exact issueCommand_ne_refused r
  · obtain ⟨t, ht, -⟩ := portWrite_of_ne_cmd (s := s) (w := w) hcmd
    simp [ht]

theorem hostRead_refused_iff : (∃ r, hostRead width offset s = .refused r) ↔ accessDefect width offset ≠ none := by
  unfold hostRead
  cases accessDefect width offset with
  | some d => simp
  | none => cases portRead offset s <;> simp

theorem hostWrite_refused_iff : (∃ r, hostWrite width offset w s = .refused r) ↔ accessDefect width offset ≠ none := by
  unfold hostWrite
  cases accessDefect width offset with
  | some d => simp
  | none => simp [portWrite_ne_refused]

/-- Settles O8: the access is refused where it has a defect, and an admitted one is never refused. -/
theorem portRefusesInadmissibleAccesses : Obligations.PortRefusesInadmissibleAccesses := by
  intro s width offset w rest
  rw [← accessDefect_eq_none]
  exact ⟨fun h => step_of_cons h ▸ hostRead_refused_iff, fun h => step_of_cons h ▸ hostWrite_refused_iff⟩

end Sys2Proof.Machine
end

section
/-! The words of the port, one access each: what a read returns, what a write stores, and what neither changes (R63, R64,
R69). -/

namespace Sys2Proof.Machine

variable {s t : State} {w : Word32} {offset j : Nat} {r r' : DataReg}

/-- Settles O9: each of the three offsets is unmapped. -/
theorem unmappedOffsetsReadZero : Obligations.UnmappedOffsetsReadZero := by
  rintro s offset w rest (rfl | rfl | rfl) <;> exact ⟨fun h => step_of_read h rfl, fun h => step_of_write h rfl⟩

/-- Settles O15: a read that goes on only adds what it returned. -/
theorem portReadsHaveNoSideEffect : Obligations.PortReadsHaveNoSideEffect := by
  intro s t width offset rest hpending h
  rw [step_of_cons hpending] at h
  obtain ⟨-, v, -, rfl⟩ := hostRead_eq_next.1 h
  exact ⟨v, rfl⟩

/-- `word = B[4j]·2^24 + B[4j+1]·2^16 + B[4j+2]·2^8 + B[4j+3]` (R64). -/
theorem packWord_toNat (b : Vector Byte 4) :
    (packWord b).toNat = b[0].toNat * 2 ^ 24 + b[1].toNat * 2 ^ 16 + b[2].toNat * 2 ^ 8 + b[3].toNat := by
  simp only [packWord, toNat_append_eq]
  omega

theorem readWord_of_holds {n : Nat} {v : ByteReg n} {b : Vector Byte 4} (h : Holds v (4 * j) b) :
    readWord r v j = .ok (packWord b) := by
  rw [readWord, readBytes_eq_ok.2 h]

/-- Settles O11: the word read is the four bytes, packed. -/
theorem dataWordReadPacksFourBytes : Obligations.DataWordReadPacksFourBytes := by
  intro s offset r j b rest hword hbytes hpending
  obtain ⟨n, v, hread, hbyte⟩ := portRead_dataWord hword s
  rw [hbyte] at hbytes
  refine ⟨packWord b, packWord_toNat b, ?_⟩
  rw [step_of_read hpending (accessDefect_dataWord hword), hread, readWord_of_holds hbytes]
  rfl

/-- The state after the bytes of `w` are stored at word `j` of the data register `r`. -/
def State.storeWord (s : State) (r : DataReg) (j : Nat) (w : Word32) : State :=
  { s with
    src := if r = .src then s.src.store (4 * j) (unpackWord w) else s.src
    key := if r = .key then s.key.store (4 * j) (unpackWord w) else s.key
    dst := if r = .dst then s.dst.store (4 * j) (unpackWord w) else s.dst
    txt := if r = .txt then s.txt.store (4 * j) (unpackWord w) else s.txt
    kc := if r = .kc then s.kc.store (4 * j) (unpackWord w) else s.kc }

@[simp] theorem dataByte_setPending (s : State) (l : List HostEvent) : (s.setPending l).dataByte r = s.dataByte r := by
  cases r <;> rfl

/-- The register that a word is stored in holds the bytes of a stored word. -/
theorem dataByte_storeWord_same (s : State) (r : DataReg) (j : Nat) (w : Word32) : ∃ v : ByteReg (regSize r),
    s.dataByte r = v.byte ∧ (s.storeWord r j w).dataByte r = (v.store (4 * j) (unpackWord w)).byte := by
  cases r <;> exact ⟨_, rfl, rfl⟩

theorem dataByte_storeWord_of_ne (h : r' ≠ r) : (s.storeWord r j w).dataByte r' = s.dataByte r' := by
  cases r' <;> exact congrArg ByteReg.byte (if_neg h.symm)

/-- A writable word is a word of its register, and an admitted write of it stores there (R64). -/
theorem portWrite_writableWord (h : (offset, r, j) ∈ writableWords) (w : Word32) (s : State) :
    portWrite offset w s = .next (s.storeWord r j w) := by
  simp only [writableWords, List.mem_cons, Prod.mk.injEq, List.not_mem_nil, or_false] at h
  obtain ⟨rfl, rfl, rfl⟩ | ⟨rfl, rfl, rfl⟩ | ⟨rfl, rfl, rfl⟩ | ⟨rfl, rfl, rfl⟩ | ⟨rfl, rfl, rfl⟩ | ⟨rfl, rfl, rfl⟩ |
    ⟨rfl, rfl, rfl⟩ | ⟨rfl, rfl, rfl⟩ := h <;> rfl

theorem writableWords_subset_dataWords : writableWords ⊆ dataWords := by
  decide

theorem writableWord_fits (h : (offset, r, j) ∈ writableWords) : 4 * j + 4 ≤ regSize r := by
  have hall : ∀ d ∈ writableWords, 4 * d.2.2 + 4 ≤ regSize d.2.1 := by decide
  exact hall _ h

/-- Settles O12: the write is a store of the word's four bytes in its register. -/
theorem dataWordWriteStoresFourBytes : Obligations.DataWordWriteStoresFourBytes := by
  intro s offset r j w rest hword hpending
  have hstep : step s = .next ((s.setPending rest).storeWord r j w) := by
    rw [step_of_write hpending (accessDefect_dataWord (writableWords_subset_dataWords hword)), portWrite_writableWord hword]
  obtain ⟨v, hold, hnew⟩ := dataByte_storeWord_same (s.setPending rest) r j w
  obtain ⟨hstored, hkept⟩ := v.byte_store_word j w (writableWord_fits hword)
  refine ⟨_, hstep, fun m hm => ?_, fun r' k hk => ?_, rfl, rfl, rfl, rfl, rfl, rfl, rfl⟩
  · rw [hnew]
    exact hstored m hm
  · by_cases hr : r' = r
    · subst hr
      rw [hnew, hkept k fun hrange => hk ⟨rfl, hrange⟩, ← hold, dataByte_setPending]
    · rw [dataByte_storeWord_of_ne hr, dataByte_setPending]

/-- A write to another word than CMD takes nothing from the pending events. -/
theorem portWrite_pending (hcmd : offset ≠ 0x00) (h : portWrite offset w s = .next t) : t.pending = s.pending := by
  obtain ⟨u, hu, hcases⟩ := portWrite_of_ne_cmd (s := s) (w := w) hcmd
  obtain rfl : u = t := by simpa [hu] using h
  obtain rfl | rfl | ⟨_, rfl⟩ | ⟨_, rfl⟩ | ⟨_, rfl⟩ := hcases <;> rfl

/-- After a write to another word than CMD the same write changes nothing, whatever is pending (R69). -/
theorem portWrite_again (hcmd : offset ≠ 0x00) (h : portWrite offset w s = .next t) (l : List HostEvent) :
    portWrite offset w (t.setPending l) = .next (t.setPending l) := by
  unfold portWrite at h ⊢
  cases hp : portReg offset with
  | cmd => exact absurd (portReg_eq_cmd.1 hp) hcmd
  | status | dst | unmapped => rfl
  | ctrl =>
    cases hp ▸ h
    rfl
  | src | key | txt =>
    cases hp ▸ h
    simp only [State.setPending, State.setSrc, State.setKey, State.setTxt, ByteReg.store_store]

/-- Settles O16: the second write meets what the first one left. -/
theorem portWritesAreIdempotent : Obligations.PortWritesAreIdempotent := by
  intro s t offset w rest hcmd hpending h
  rw [step_of_cons hpending] at h
  obtain ⟨hoffset, hwrite⟩ := hostWrite_eq_next.1 h
  rw [step_of_write (portWrite_pending hcmd hwrite) hoffset]
  exact portWrite_again hcmd hwrite rest

end Sys2Proof.Machine
end

section
/-! Which instance of a platform an access reaches (R71, R74): where the windows do not meet, the one whose window holds the
address, so accesses to different instances do not meet either. -/

namespace Sys2Proof.Machine

variable {slots before after rest u v : List Slot} {sl sl' : Slot} {t : State} {address a b : Nat}
  {access f g : Nat → State → StepResult}

theorem inWindow_iff : inWindow sl address = true ↔ sl.base ≤ address ∧ address < sl.base + 64 := by
  simp [inWindow]

/-- Of two windows that do not meet only one holds an address. -/
theorem windowsApart.not_inWindow (h : windowsApart sl sl') (h' : inWindow sl' address = true) : ¬ inWindow sl address := by
  rw [inWindow_iff] at h' ⊢
  unfold windowsApart at h
  omega

/-- Where the windows do not meet, the instance whose window holds an address is the only one. -/
theorem eq_of_inWindow (hapart : slots.Pairwise windowsApart) (hsl : sl ∈ slots) (hsl' : sl' ∈ slots)
    (h : inWindow sl address = true) (h' : inWindow sl' address = true) : sl = sl' := by
  by_contra hne
  have hsymm : Std.Symm windowsApart := ⟨fun _ _ => Or.symm⟩
  exact (hapart.forall hsl hsl' hne).not_inWindow h' h

/-- An access at the first instance of the list. -/
theorem routeAccess_cons_of_inWindow (h : inWindow sl address = true) : routeAccess access address (sl :: rest) = .next u ↔
    ∃ t, access (address - sl.base) sl.core = .next t ∧ u = ⟨sl.base, t⟩ :: rest := by
  rw [routeAccess, if_pos h]
  cases access (address - sl.base) sl.core <;> simp [eq_comm]

/-- An access past the first instance of the list. -/
theorem routeAccess_cons_of_not_inWindow (h : ¬ inWindow sl address) : routeAccess access address (sl :: rest) = .next u ↔
    ∃ r, routeAccess access address rest = .next r ∧ u = sl :: r := by
  rw [routeAccess, if_neg h]
  cases routeAccess access address rest <;> simp [eq_comm]

/-- An access reaches the first instance whose window holds the address. -/
theorem routeAccess_append (hbefore : ∀ x ∈ before, ¬ inWindow x address) (hsl : inWindow sl address = true)
    (h : access (address - sl.base) sl.core = .next t) :
    routeAccess access address (before ++ sl :: after) = .next (before ++ ⟨sl.base, t⟩ :: after) := by
  induction before with
  | nil => exact (routeAccess_cons_of_inWindow hsl).2 ⟨t, h, rfl⟩
  | cons x before ih =>
    obtain ⟨hx, hrest⟩ := List.forall_mem_cons.1 hbefore
    exact (routeAccess_cons_of_not_inWindow hx).2 ⟨_, ih hrest, rfl⟩

/-- Settles O56: no instance before the reached one has the address in its window. -/
theorem platformAccessReachesOneInstance : Obligations.PlatformAccessReachesOneInstance := by
  intro before after sl width address w hapart hlow hhigh
  have hsl : inWindow sl address = true := inWindow_iff.2 ⟨hlow, hhigh⟩
  have hbefore : ∀ x ∈ before, ¬ inWindow x address := fun x hx =>
    ((List.pairwise_append.1 hapart).2.2 x hx sl List.mem_cons_self).not_inWindow hsl
  exact ⟨fun _ h => routeAccess_append hbefore hsl h, fun _ h => routeAccess_append hbefore hsl h⟩

/-- Accesses at two addresses of which no window holds both give the same result in either order. -/
theorem routeAccess_comm (hdiffer : ∀ sl ∈ slots, inWindow sl a = true → ¬ inWindow sl b)
    (ha : routeAccess f a slots = .next u) (hb : routeAccess g b u = .next v) :
    ∃ u', routeAccess g b slots = .next u' ∧ routeAccess f a u' = .next v := by
  induction slots generalizing u v with
  | nil => cases ha
  | cons sl rest ih =>
    obtain ⟨hsl, hrest⟩ := List.forall_mem_cons.1 hdiffer
    by_cases hina : inWindow sl a = true
    · obtain ⟨t, ht, rfl⟩ := (routeAccess_cons_of_inWindow hina).1 ha
      obtain ⟨r, hr, rfl⟩ := (routeAccess_cons_of_not_inWindow (sl := ⟨sl.base, t⟩) (hsl hina)).1 hb
      exact ⟨sl :: r, (routeAccess_cons_of_not_inWindow (hsl hina)).2 ⟨r, hr, rfl⟩,
        (routeAccess_cons_of_inWindow hina).2 ⟨t, ht, rfl⟩⟩
    obtain ⟨r, hr, rfl⟩ := (routeAccess_cons_of_not_inWindow hina).1 ha
    by_cases hinb : inWindow sl b = true
    · obtain ⟨t, ht, rfl⟩ := (routeAccess_cons_of_inWindow hinb).1 hb
      exact ⟨⟨sl.base, t⟩ :: rest, (routeAccess_cons_of_inWindow hinb).2 ⟨t, ht, rfl⟩,
        (routeAccess_cons_of_not_inWindow (sl := ⟨sl.base, t⟩) hina).2 ⟨r, hr, rfl⟩⟩
    · obtain ⟨r', hr', rfl⟩ := (routeAccess_cons_of_not_inWindow hinb).1 hb
      obtain ⟨u', hu', hv⟩ := ih hrest hr hr'
      exact ⟨sl :: u', (routeAccess_cons_of_not_inWindow hinb).2 ⟨u', hu', rfl⟩,
        (routeAccess_cons_of_not_inWindow hina).2 ⟨r', hv, rfl⟩⟩

/-- Settles O57: an instance whose window held both addresses would be both of the two that the writes reach. -/
theorem platformWritesCommute : Obligations.PlatformWritesCommute := by
  rintro slots u v a b wa wb hapart ⟨sa, hsa, sb, hsb, hne, halow, hahigh, hblow, hbhigh⟩ hu hv
  refine routeAccess_comm (fun sl hsl hina hinb => hne ?_) hu hv
  rw [← eq_of_inWindow hapart hsl hsa hina (inWindow_iff.2 ⟨halow, hahigh⟩),
    eq_of_inWindow hapart hsl hsb hinb (inWindow_iff.2 ⟨hblow, hbhigh⟩)]

end Sys2Proof.Machine
end

section
/-! The decoder's answer for every word (R80 to R89), and the assembler's answer for every operand (R90). -/

namespace Sys2Proof

variable {w : Word32}

/-! ### The three cases of R89 -/

theorem decode_of_reservedBit (h : w &&& 0xFF0000E0#32 ≠ 0#32) : decode w = .error .reservedBit := by
  rw [ne_eq, ← reserved_zero_iff, not_and_or] at h
  exact if_pos h

theorem opField_eq_ofNat (w : Word32) : opField w = BitVec.ofNat 4 (w.toNat % 16) :=
  BitVec.eq_of_toNat_eq (by simp [opField_toNat])

theorem decode_of_reservedOpcode (h : w &&& 0xFF0000E0#32 = 0#32) (hop : w.toNat % 16 = 0 ∨ 10 ≤ w.toNat % 16) :
    decode w = .error .reservedOpcode := by
  obtain ⟨h1, h0⟩ := (reserved_zero_iff w).2 h
  have hfield := opField_eq_ofNat w
  have hlt : w.toNat % 16 < 16 := Nat.mod_lt _ (by decide)
  generalize w.toNat % 16 = n at hop hfield hlt
  rcases hop with rfl | hlow
  · simp [decode, h1, h0, hfield]
  · interval_cases n <;> simp [decode, h1, h0, hfield]

theorem decode_of_commandOpcode (h : w &&& 0xFF0000E0#32 = 0#32) (hlow : 1 ≤ w.toNat % 16) (hhigh : w.toNat % 16 ≤ 9) :
    ∃ i, decode w = .ok i := by
  obtain ⟨h1, h0⟩ := (reserved_zero_iff w).2 h
  have hfield := opField_eq_ofNat w
  generalize w.toNat % 16 = n at hlow hhigh hfield
  interval_cases n <;> simp [decode, h1, h0, hfield]

/-- Settles O3: the three cases exclude each other and leave no word out. -/
theorem decoderRefusesReservedOnly : Obligations.DecoderRefusesReservedOnly := by
  intro w
  by_cases h : w &&& 0xFF0000E0#32 = 0#32
  · by_cases hop : w.toNat % 16 = 0 ∨ 10 ≤ w.toNat % 16
    · have hnot : ¬ (1 ≤ w.toNat % 16 ∧ w.toNat % 16 ≤ 9) := by omega
      simp [decode_of_reservedOpcode h hop, h, hop, hnot]
    · have hcommand : 1 ≤ w.toNat % 16 ∧ w.toNat % 16 ≤ 9 := by omega
      obtain ⟨i, hi⟩ := decode_of_commandOpcode h hcommand.1 hcommand.2
      simp [hi, h, hop, hcommand]
  · simp [decode_of_reservedBit h, h]

/-! ### The rows of the opcode table -/

/-- MODE as the mode it names (R16, R80). -/
theorem modeOfBit_modeField (w : Word32) : modeOfBit (modeField w) = if w.getLsbD 4 then .decrypt else .encrypt := by
  have hbit : ∀ b : BitVec 1, modeOfBit b = if b == 1#1 then .decrypt else .encrypt := by decide
  rw [hbit, BitVec.getLsbD_eq_extractLsb', modeField]

/-- A word that matches the row of `op` decodes as the word of R80 that has `op` and the same other fields. -/
theorem decode_of_match (op : BitVec 4) (h : w &&& 0xFF0000EF#32 = op.setWidth 32) :
    decode w = decode (commandWord op (modeField w) (lenField w) (rndField w) (idxField w)) := by
  have hrow : ∀ op : BitVec 4, res1Field (op.setWidth 32) = 0#8 ∧ res0Field (op.setWidth 32) = 0#3 ∧
    opField (op.setWidth 32) = op := by decide
  obtain ⟨h1, h0, hop⟩ := fixed_fields_of_match h
  simp only [hrow op] at h1 h0 hop
  simp [decode, h1, h0, hop]

/-- Settles O2: a row's opcode chooses the command, which holds the fields that the row uses. -/
theorem tableWordsDecode : Obligations.TableWordsDecode := by
  intro w
  have hidx : idxField w = (w >>> 16).setWidth 8 := rfl
  have hrnd : rndField w = (w >>> 12).setWidth 4 := rfl
  have hlen : lenField w = (w >>> 8).setWidth 4 := rfl
  simp only [← modeOfBit_modeField, ← hidx, ← hrnd, ← hlen]
  refine ⟨fun h => (decode_of_match 0x1#4 h).trans ?_, fun h => (decode_of_match 0x2#4 h).trans ?_,
    fun h => (decode_of_match 0x3#4 h).trans ?_, fun h => (decode_of_match 0x4#4 h).trans ?_,
    fun h => (decode_of_match 0x5#4 h).trans ?_, fun h => (decode_of_match 0x6#4 h).trans ?_,
    fun h => (decode_of_match 0x7#4 h).trans ?_, fun h => (decode_of_match 0x8#4 h).trans ?_,
    fun h => (decode_of_match 0x9#4 h).trans ?_⟩ <;>
  simp [decode]

/-- Settles O4: the decoder runs on each word. -/
theorem specWordsDecode : Obligations.SpecWordsDecode := by
  unfold Obligations.SpecWordsDecode
  decide

/-! ### The assembler's operands -/

theorem decode_encode (i : Instr) : decode (encode i) = .ok i := by
  cases i <;> simp [encode, decode]

section
variable {c : AsmCommand} {x bound : Nat} (hc : c.wellFormed = decide (x < bound))
include hc

theorem decode_assemble_of_lt (h : x < bound) : (assemble c).map decode = some (.ok c.toInstr) := by
  rw [assemble, if_pos (hc.trans (decide_eq_true h)), Option.map_some, decode_encode]

theorem assemble_of_le (h : bound ≤ x) : assemble c = none := by
  rw [assemble, hc, decide_eq_false h.not_gt]
  rfl

end

/-- Settles O5: each command's check is that `x` is below its field's bound, and there `x` is the field's own number. -/
theorem assemblerKeepsOrRefusesOperands : Obligations.AssemblerKeepsOrRefusesOperands := by
  intro x
  refine ⟨fun h => ⟨BitVec.ofNat 8 x, Nat.mod_eq_of_lt h, ?_, fun m => ?_⟩, fun h => ⟨?_, fun m => ?_⟩,
    fun h => ⟨BitVec.ofNat 4 x, Nat.mod_eq_of_lt h, ?_, ?_, fun m => ⟨?_, ?_⟩⟩, fun h => ⟨?_, ?_, fun m => ⟨?_, ?_⟩⟩⟩
  case refine_1 | refine_2 | refine_5 | refine_6 | refine_7 | refine_8 => exact decode_assemble_of_lt rfl h
  case refine_3 | refine_4 | refine_9 | refine_10 | refine_11 | refine_12 => exact assemble_of_le rfl h

end Sys2Proof
end

section
/-! A CMD write of a word that is no command (R86, R88). -/

namespace Sys2Proof.Machine

variable {s : State} {w : Word32} {rest : List HostEvent}

theorem step_of_decode_eq_error {e : DecodeError} (h : s.pending = .write 32 0x00 w :: rest) (hw : decode w = .error e) :
    step s = .next { s with
      pending := rest, status := .badCommand, history := .commandDone w .badCommand :: s.history } := by
  have hcmd : step s = issueCommand w (s.setPending rest) := step_of_write h rfl
  rw [hcmd, issueCommand, hw]
  rfl

/-- Settles O17: the decoder refuses the word. -/
theorem reservedBitsRaiseBadCommand : Obligations.ReservedBitsRaiseBadCommand :=
  fun _ _ _ h hres => step_of_decode_eq_error h (decode_of_reservedBit hres)

/-- Settles O18: the decoder refuses the word, for a reserved bit where it has one set as well. -/
theorem reservedOpcodesRaiseBadCommand : Obligations.ReservedOpcodesRaiseBadCommand := by
  intro s w rest h hop
  by_cases hres : w &&& 0xFF0000E0#32 = 0#32
  · exact step_of_decode_eq_error h (decode_of_reservedOpcode hres hop)
  · exact step_of_decode_eq_error h (decode_of_reservedBit hres)

end Sys2Proof.Machine
end

section
/-! The substitution (R100, R103). -/

namespace Sys2Proof.Machine

/-- The store of one byte sets that byte. -/
theorem ByteReg.store_singleton {n : Nat} (v : ByteReg n) (i : Nat) (b : Byte) (h : i < n) :
    v.store i [b] = v.set i (some b) h := by
  ext j hj : 1
  simp only [ByteReg.store, Vector.getElem_mapIdx, Vector.getElem_set, List.length_singleton]
  by_cases hij : i = j
  · subst hij
    simp
  · rw [if_neg (by omega), if_neg hij]

/-- Settles O29: the check of DST passes, and the store of one byte is the table entry's. -/
theorem sboxStoresTableEntry : Obligations.SboxStoresTableEntry := by
  intro s x hdst
  have hexec : exec (.sbox x) s = .next ((s.storeDst [lookup s.sbox x]).setStatus .ok) :=
    execSbox_eq_next.2 (.inr ⟨hdst, rfl⟩)
  rw [hexec, State.storeDst, ByteReg.store_singleton s.dst 0 _ (by decide)]
  rfl

end Sys2Proof.Machine
end

section
/-! The ring of the key cursor (R111, R115): its rotations as numbers and byte by byte, and what repeated draws do. -/

namespace Sys2Proof.Machine

variable (v : Ring) {p : Nat}

/-! ### The rotations as numbers -/

/-- The two parts of a rotation do not overlap, so their union is their sum. -/
theorem toNat_shiftLeft_or_ushiftRight {i : Nat} (hi : i ≤ 64) :
    ((v <<< i) ||| (v >>> (64 - i))).toNat = v.toNat % 2 ^ (64 - i) * 2 ^ i + v.toNat / 2 ^ (64 - i) := by
  have hpow : 2 ^ (64 - i) * 2 ^ i = 2 ^ 64 := by rw [← pow_add, Nat.sub_add_cancel hi]
  have hlow : v.toNat >>> (64 - i) < 2 ^ i := by
    rw [Nat.shiftRight_eq_div_pow]
    exact Nat.div_lt_of_lt_mul (hpow ▸ v.isLt)
  rw [BitVec.toNat_or, BitVec.toNat_shiftLeft, BitVec.toNat_ushiftRight, Nat.shiftLeft_eq, ← hpow, Nat.mul_mod_mul_right,
    ← Nat.shiftLeft_eq, ← Nat.shiftLeft_add_eq_or_of_lt hlow, Nat.shiftLeft_eq, Nat.shiftRight_eq_div_pow]

theorem toNat_rotl64 : (rotl64 v).toNat = 2 * v.toNat % 2 ^ 64 + v.toNat / 2 ^ 63 := by
  have hsum := toNat_shiftLeft_or_ushiftRight v (i := 1) (by decide)
  rw [rotl64, hsum]
  omega

theorem toNat_rotr64 : (rotr64 v).toNat = v.toNat / 2 + v.toNat % 2 * 2 ^ 63 := by
  have hsum := toNat_shiftLeft_or_ushiftRight v (i := 63) (by decide)
  rw [rotr64, BitVec.or_comm, hsum]
  omega

/-! ### The rotations byte by byte -/

/-- Byte `p` of a ring value, counted from its low end. -/
def ringField (v : Ring) (p : Nat) : Byte := v.extractLsb' (8 * p) 8

theorem ringByte_msbFirst (j : Nat) : ringByte .msbFirst v j = ringField v (7 - j % 8) := by
  rw [ringByte, ringField, Nat.mul_sub]

theorem ringByte_lsbFirst (j : Nat) : ringByte .lsbFirst v j = ringField v (j % 8) := rfl

theorem getLsbD_ringField (p b : Nat) :
    (ringField v p).getLsbD b = (decide (b < 8) && v.getLsbD (8 * p + b)) := BitVec.getLsbD_extractLsb' ..

/-- A left rotation brings each byte's bit 0 from the top of the byte below it. -/
theorem ringField_rotl64 (hp : p < 8) :
    ringField (rotl64 v) p = (ringField v p <<< 1) ||| (ringField v ((p + 7) % 8) >>> 7) := by
  apply BitVec.eq_of_getLsbD_eq
  intro b hb
  simp only [BitVec.getLsbD_or, BitVec.getLsbD_shiftLeft, BitVec.getLsbD_ushiftRight, getLsbD_ringField,
    rotl64_bit v (8 * p + b) (by omega)]
  cases b with
  | zero => simp [show (8 * p + 63) % 64 = 8 * ((p + 7) % 8) + 7 by omega]
  | succ b =>
    have hout : ¬ 7 + (b + 1) < 8 := by omega
    simp [hb, hout, show (8 * p + (b + 1) + 63) % 64 = 8 * p + b by omega, show b < 8 by omega]

/-- A right rotation brings each byte's bit 7 from the bottom of the byte above it. -/
theorem ringField_rotr64 (hp : p < 8) :
    ringField (rotr64 v) p = (ringField v p >>> 1) ||| (ringField v ((p + 1) % 8) <<< 7) := by
  apply BitVec.eq_of_getLsbD_eq
  intro b hb
  simp only [BitVec.getLsbD_or, BitVec.getLsbD_shiftLeft, BitVec.getLsbD_ushiftRight, getLsbD_ringField,
    rotr64_bit v (8 * p + b) (by omega)]
  obtain rfl | hb7 : b = 7 ∨ b < 7 := by omega
  · simp [show (8 * p + 7 + 1) % 64 = 8 * ((p + 1) % 8) by omega]
  · simp [hb, hb7, show (8 * p + b + 1) % 64 = 8 * p + (1 + b) by omega, show 1 + b < 8 by omega]

/-! What R111 says of either rotation in the cursor's bytes: the byte itself moved by one bit, and one bit of the neighbour
that the ring order puts below or above it. -/

theorem ringByte_rotl64_msbFirst (j : Nat) :
    ringByte .msbFirst (rotl64 v) j = (ringByte .msbFirst v j <<< 1) ||| (ringByte .msbFirst v (j + 1) >>> 7) := by
  simp only [ringByte_msbFirst]
  rw [ringField_rotl64 v (by omega), show (7 - j % 8 + 7) % 8 = 7 - (j + 1) % 8 by omega]

theorem ringByte_rotr64_msbFirst (j : Nat) :
    ringByte .msbFirst (rotr64 v) j = (ringByte .msbFirst v j >>> 1) ||| (ringByte .msbFirst v (j + 7) <<< 7) := by
  simp only [ringByte_msbFirst]
  rw [ringField_rotr64 v (by omega), show (7 - j % 8 + 1) % 8 = 7 - (j + 7) % 8 by omega]

theorem ringByte_rotl64_lsbFirst (j : Nat) :
    ringByte .lsbFirst (rotl64 v) j = (ringByte .lsbFirst v j <<< 1) ||| (ringByte .lsbFirst v (j + 7) >>> 7) := by
  simp only [ringByte_lsbFirst]
  rw [ringField_rotl64 v (by omega), show (j % 8 + 7) % 8 = (j + 7) % 8 by omega]

theorem ringByte_rotr64_lsbFirst (j : Nat) :
    ringByte .lsbFirst (rotr64 v) j = (ringByte .lsbFirst v j >>> 1) ||| (ringByte .lsbFirst v (j + 1) <<< 7) := by
  simp only [ringByte_lsbFirst]
  rw [ringField_rotr64 v (by omega), show (j % 8 + 1) % 8 = (j + 1) % 8 by omega]

/-- A shift to the top keeps bit 0 alone. -/
theorem and_one_shiftLeft_seven (b : Byte) : (b &&& 1#8) <<< 7 = b <<< 7 := by
  apply BitVec.eq_of_toNat_eq
  simp only [BitVec.toNat_shiftLeft, BitVec.toNat_and, BitVec.toNat_ofNat, Nat.reducePow, Nat.reduceMod, Nat.and_one_is_mod,
    Nat.shiftLeft_eq]
  omega

/-- Settles O38: the numbers, and the four byte rules read off the cursor that the ring was made of. -/
theorem rotationsActOnCursorBytes : Obligations.RotationsActOnCursorBytes := by
  refine ⟨fun v => ⟨toNat_rotl64 v, toNat_rotr64 v⟩, fun cur i => ?_⟩
  simp only [and_one_shiftLeft_seven, ← ringByte_ringOf .msbFirst]
  refine ⟨ringByte_rotl64_msbFirst _ _, ringByte_rotr64_msbFirst _ _, ?_, ?_⟩
  · rw [ringByte_rotl64_lsbFirst]
    simp only [ringByte_ringOf]
  · rw [ringByte_rotr64_lsbFirst]
    simp only [ringByte_ringOf]

/-! ### Draws and repeated rotations -/

@[simp] theorem draw_encrypt (o : RingOrder) (j : Nat) : draw o v j .encrypt = (ringByte o (rotl64 v) j, rotl64 v) := rfl

@[simp] theorem draw_decrypt (o : RingOrder) (j : Nat) : draw o v j .decrypt = (ringByte o v j, rotr64 v) := rfl

theorem getLsbD_rotl64_iterate (m : Nat) {n : Nat} (hn : n < 64) :
    (rotl64^[m] v).getLsbD n = v.getLsbD ((n + 63 * m) % 64) := by
  induction m generalizing n with
  | zero => rw [Function.iterate_zero_apply, Nat.mul_zero, Nat.add_zero, Nat.mod_eq_of_lt hn]
  | succ m ih =>
    rw [Function.iterate_succ_apply', rotl64_bit _ _ hn, ih (by omega)]
    congr 1
    omega

/-- Whole turns of the ring change nothing. -/
theorem rotl64_iterate_turns (k : Nat) : rotl64^[64 * k] v = v := by
  apply BitVec.eq_of_getLsbD_eq
  intro n hn
  rw [getLsbD_rotl64_iterate v _ hn, show (n + 63 * (64 * k)) % 64 = n by omega]

theorem rotr64_iterate_turns (k : Nat) : rotr64^[64 * k] v = v := by
  have hback := Function.LeftInverse.iterate rotr64_rotl64 (64 * k) v
  rwa [rotl64_iterate_turns] at hback

theorem ringField_zero (p : Nat) : ringField 0#64 p = 0x00#8 := by
  simp [ringField]

theorem ringField_allOnes (hp : p < 8) : ringField (BitVec.allOnes 64) p = 0xFF#8 := by
  interval_cases p <;> rfl

/-- A ring that neither rotation changes, all of whose bytes are equal, gives that byte to every draw. -/
theorem draw_of_constant {c : Byte} (hl : rotl64 v = v) (hr : rotr64 v = v) (hc : ∀ p < 8, ringField v p = c)
    (o : RingOrder) (j : Nat) (m : Mode) : draw o v j m = (c, v) := by
  have hbyte : ringByte o v j = c := by
    cases o with
    | msbFirst => exact (ringByte_msbFirst v j).trans (hc _ (by omega))
    | lsbFirst => exact (ringByte_lsbFirst v j).trans (hc _ (by omega))
  cases m with
  | encrypt => rw [draw_encrypt, hl, hbyte]
  | decrypt => rw [draw_decrypt, hr, hbyte]

/-- Settles O39: draws are rotations with a read, a whole turn is the identity, and the two constant rings never change. -/
theorem drawLaws : Obligations.DrawLaws := by
  refine fun o v j => ⟨fun n => ⟨rfl, ?_⟩, fun n => ⟨rfl, rfl⟩, ?_, rotl64_iterate_turns v 1, rotr64_iterate_turns v 1,
    rotl64_iterate_turns v 3, rotr64_iterate_turns v 3, fun m =>
      ⟨draw_of_constant _ rfl rfl (fun p _ => ringField_zero p) o j m,
        draw_of_constant _ rfl rfl (fun _ => ringField_allOnes) o j m⟩⟩
  · rw [draw_encrypt, Function.iterate_succ_apply']
  · rw [draw_encrypt, draw_decrypt, rotr64_rotl64]

end Sys2Proof.Machine
end

section
/-! The commands of the key cursor (R116, R117): their whole next state. -/

namespace Sys2Proof.Machine

/-- Settles O30: the check of KEY passes, and the store covers KC. -/
theorem kcloadCopiesKey : Obligations.KcloadCopiesKey := by
  intro s k hkeyV hkeyLen hkey
  have hexec : exec .kcload s =
      .next (((s.setKc (s.kc.store 0 k.toList)).setCtrl { s.ctrl with kcV := true }).setStatus .ok) :=
    execKcload_eq_next.2 (.inr ⟨Ctrl.keyOK_iff.2 ⟨hkeyV, hkeyLen⟩, k, hkey, rfl⟩)
  rw [hexec, ByteReg.store_all]
  rfl

/-- KC after a ring value is stored: its bytes, each as its number in the ring order says. -/
theorem store_ringBytes (kc : ByteReg 8) (o : RingOrder) (v : Ring) :
    kc.store 0 (ringBytes o v) = (Vector.ofFn fun i : Fin 8 => ringByte o v i).map some :=
  kc.store_all (Vector.ofFn fun i : Fin 8 => ringByte o v i)

/-- KCDRAW on a loaded cursor (R117): what one draw leaves in KC and DST. -/
theorem exec_kcdraw_of_holds {s : State} {cur : Vector Byte 8} (hkc : s.ctrl.kcV = true) (hdst : s.ctrl.dstV = true)
    (hcur : Holds s.kc 0 cur) (m : Mode) (j : BitVec 8) :
    exec (.kcdraw m j) s = .next { s with
      kc := (Vector.ofFn fun i : Fin 8 => ringByte .msbFirst (draw .msbFirst (ringOf .msbFirst cur) j.toNat m).2 i).map some
      dst := s.dst.set 0 (some (draw .msbFirst (ringOf .msbFirst cur) j.toNat m).1)
      status := .ok } := by
  rw [← store_ringBytes s.kc, ← ByteReg.store_singleton]
  exact execKcdraw_eq_next.2 (.inr (.inr ⟨hkc, hdst, _, readCursor_eq_ok.2 ⟨cur, hcur, rfl⟩, rfl⟩))

/-- Settles O31: the draw on the ring, with the rotation read byte by byte. -/
theorem kcdrawRotatesAndReads : Obligations.KcdrawRotatesAndReads := by
  intro s j cur hkc hdst hcur
  constructor
  · rw [exec_kcdraw_of_holds hkc hdst hcur]
    simp [ringByte_rotl64_msbFirst, ringByte_ringOf, Nat.mod_eq_of_lt]
  · rw [exec_kcdraw_of_holds hkc hdst hcur]
    simp [ringByte_rotr64_msbFirst, ringByte_ringOf, Nat.mod_eq_of_lt]

end Sys2Proof.Machine
end

section
/-! The frames of KCLOAD, CIPHER and HEXENC (R116, R175, R197). -/

namespace Sys2Proof.Machine

theorem length_hexText (bs : List Byte) : (hexText bs).length = 2 * bs.length := by
  induction bs with
  | nil => rfl
  | cons b bs ih =>
    simp only [hexText, List.length_cons, ih]
    omega

theorem txt_of_exec_hexenc {s t : State} {n : BitVec 4} {j : Nat} (h : exec (.hexenc n) s = .next t)
    (hj : 2 * n.toNat ≤ j) : t.txt.byte j = s.txt.byte j := by
  obtain ⟨-, rfl⟩ | ⟨-, -, rfl⟩ | ⟨-, -, b, -, rfl⟩ := execHexenc_eq_next.1 h
  · rfl
  · rfl
  · exact s.txt.byte_store_of_le _ j (by rwa [length_hexText, Vector.length_toList])

/-- Settles O50: an error leaves all but STATUS, and the effect of each of the three is a few named updates. -/
theorem loadCipherEncodeFrame : Obligations.LoadCipherEncodeFrame := by
  refine fun s t => ⟨fun h => ?_, fun m h => ?_, fun n h => ⟨?_, fun j => txt_of_exec_hexenc h⟩⟩
  · obtain ⟨_, -, rfl⟩ | ⟨k, rfl⟩ := exec_eq_next_cases h <;> rfl
  · obtain ⟨_, -, rfl⟩ | ⟨bs, -, rfl⟩ := exec_eq_next_cases h <;> rfl
  · obtain ⟨_, -, rfl⟩ | ⟨bs, rfl⟩ := exec_eq_next_cases h <;> rfl

end Sys2Proof.Machine
end

section
/-! The command GFUN (R130, R132): its whole next state. -/

namespace Sys2Proof.Machine

/-- A store sets the byte at its base, then stores the rest after it. -/
theorem ByteReg.store_cons {n : Nat} (v : ByteReg n) (i : Nat) (b : Byte) (bs : List Byte) (h : i < n) :
    v.store i (b :: bs) = ByteReg.store (v.set i (some b) h) (i + 1) bs := by
  ext j hj : 1
  simp only [ByteReg.store, Vector.getElem_mapIdx, Vector.getElem_set, List.length_cons]
  obtain hlt | rfl | hgt := Nat.lt_trichotomy j i
  · rw [if_neg (by omega), if_neg (by omega), if_neg (by omega)]
  · simp
  · simp only [show j - i = j - (i + 1) + 1 by omega, List.getElem?_cons_succ, if_neg hgt.ne]
    exact if_congr (by omega) rfl rfl

/-- R130 on the two bytes of a word: the four stages of the chain, the last two of which are G's bytes. -/
theorem gFunction_w16 (table : Vector Byte 256) (h l k0 k1 k2 k3 : Byte) :
    let h1 := lookup table (l ^^^ k0) ^^^ h
    let l1 := lookup table (h1 ^^^ k1) ^^^ l
    let h2 := lookup table (l1 ^^^ k2) ^^^ h1
    let l2 := lookup table (h2 ^^^ k3) ^^^ l1
    gFunction table (w16 h l) k0 k1 k2 k3 = w16 h2 l2 := by
  simp only [gFunction, hi8_w16, lo8_w16]

/-- Settles O32: the checks of SRC and DST pass, the chain gives the bytes of G, and the store of two bytes sets them. -/
theorem gfunComputesChain : Obligations.GfunComputesChain := by
  intro s b hsrcV hsrcLen hdst hsrc
  have hexec : exec .gfun s = .next ((s.storeDst
      [hi8 (gFunction s.sbox (w16 b[0] b[1]) b[2] b[3] b[4] b[5]),
        lo8 (gFunction s.sbox (w16 b[0] b[1]) b[2] b[3] b[4] b[5])]).setStatus .ok) :=
    execGfun_eq_next.2 (.inr (.inr ⟨Ctrl.srcOK_iff.2 ⟨hsrcV, hsrcLen⟩, hdst, b, hsrc, rfl⟩))
  rw [hexec, gFunction_w16, hi8_w16, lo8_w16, State.storeDst, ByteReg.store_cons s.dst 0 _ _ (by decide),
    ByteReg.store_singleton _ 1 _ (by decide)]
  rfl

end Sys2Proof.Machine
end

section
/-! The twelve draws of F (R141, R142), and the command FFUN (R143, R144, R147). -/

namespace Sys2Proof.Machine

/-! ### The draws -/

/-- One line of R141 moves the cursor one bit to the left before each byte it reads. -/
theorem drawUp_eq (o : RingOrder) (base : Nat) (v : Ring) : drawUp o base v =
    (⟨ringByte o (rotl64^[1] v) base, ringByte o (rotl64^[2] v) (base + 1), ringByte o (rotl64^[3] v) (base + 2),
      ringByte o (rotl64^[4] v) (base + 3)⟩, rotl64^[4] v) := rfl

/-- One line of R142 moves the cursor one bit to the right after each byte it reads, the last byte of the array first. -/
theorem drawDown_eq (o : RingOrder) (base : Nat) (v : Ring) : drawDown o base v =
    (⟨ringByte o (rotr64^[3] v) base, ringByte o (rotr64^[2] v) (base + 1), ringByte o (rotr64^[1] v) (base + 2),
      ringByte o v (base + 3)⟩, rotr64^[4] v) := rfl

/-- Settles O40: three lines of four draws each, every line on the cursor as the lines before it left it. -/
theorem subkeysAreDrawnInOrder : Obligations.SubkeysAreDrawnInOrder := by
  intro o kr v
  constructor
  · simp only [drawSubkeys, drawUp_eq, ← Function.iterate_add_apply, Nat.reduceAdd, Nat.add_zero]
  · simp only [drawSubkeys, drawDown_eq, ← Function.iterate_add_apply, Nat.reduceAdd, Nat.add_zero,
      Function.iterate_zero_apply]

/-! A Decrypt line mirrors an Encrypt line: each of its draws reads the cursor where the other's draw of that byte left it. -/

theorem drawDown_drawUp (o : RingOrder) (base : Nat) (v : Ring) :
    drawDown o base (drawUp o base v).2 = ((drawUp o base v).1, v) := by
  simp only [drawUp, drawDown, draw_encrypt, draw_decrypt, rotr64_rotl64]

theorem drawUp_drawDown (o : RingOrder) (base : Nat) (v : Ring) :
    drawUp o base (drawDown o base v).2 = ((drawDown o base v).1, v) := by
  simp only [drawUp, drawDown, draw_encrypt, draw_decrypt, rotl64_rotr64]

/-- Settles O41: the lines are undone one by one, the last drawn first. -/
theorem decryptDrawsMirrorEncryptDraws : Obligations.DecryptDrawsMirrorEncryptDraws := by
  intro o kr v
  constructor
  · simp only [drawSubkeys, drawDown_drawUp]
  · simp only [drawSubkeys, drawUp_drawDown]

/-! ### The mixing -/

theorem hi8_sum16 (a b c : Nat) : hi8 (sum16 a b c) = BitVec.ofNat 8 ((a + b + c) % 65536 / 256) := by
  apply BitVec.eq_of_toNat_eq
  rw [hi8_toNat, sum16, BitVec.toNat_ofNat, BitVec.toNat_ofNat]
  omega

theorem lo8_sum16 (a b c : Nat) : lo8 (sum16 a b c) = BitVec.ofNat 8 ((a + b + c) % 65536) := by
  apply BitVec.eq_of_toNat_eq
  rw [lo8_toNat, sum16, BitVec.toNat_ofNat, BitVec.toNat_ofNat]

/-- A stored ring value is the one that KC then holds. -/
theorem holds_store_ringBytes (kc : ByteReg 8) (o : RingOrder) (v : Ring) :
    ∃ c : Vector Byte 8, Holds (kc.store 0 (ringBytes o v)) 0 c ∧ ringOf o c = v := by
  have hlist : (Vector.ofFn fun i : Fin 8 => ringByte o v i).toList = ringBytes o v := rfl
  refine ⟨_, ?_, ringOf_ringBytes o v _ hlist⟩
  rw [← hlist]
  exact ByteReg.holds_store kc _ (by decide)

/-- FFUN on written operands (R147): F's two words go to DST, high byte first, and its cursor to KC. -/
theorem exec_ffun_of_holds {s : State} {b : Vector Byte 4} {c : Vector Byte 8} (hsrc : s.ctrl.srcOK = true)
    (hkc : s.ctrl.kcV = true) (hdst : s.ctrl.dstV = true) (hb : Holds s.src 0 b) (hc : Holds s.kc 0 c) (m : Mode)
    (rnd : BitVec 4) :
    let f := fFunction .msbFirst s.sbox (w16 b[0] b[1]) (w16 b[2] b[3]) rnd.toNat m (ringOf .msbFirst c)
    exec (.ffun m rnd) s =
      .next (((s.storeCursor f.2).storeDst #v[hi8 f.1.1, lo8 f.1.1, hi8 f.1.2, lo8 f.1.2].toList).setStatus .ok) :=
  execFfun_eq_next.2 (.inr (.inr (.inr ⟨hsrc, hkc, hdst, b, hb, _, readCursor_eq_ok.2 ⟨c, hc, rfl⟩, _, rfl, rfl⟩)))

/-- Settles O33: the checks pass, and the bytes stored are those of the two sums of R144. -/
theorem ffunMixesTwoGOutputs : Obligations.FfunMixesTwoGOutputs := by
  intro s m rnd b c hsrcV hsrcLen hkc hdst hb hc kr d t0 t1 f0 f1
  refine ⟨_, exec_ffun_of_holds (Ctrl.srcOK_iff.2 ⟨hsrcV, hsrcLen⟩) hkc hdst hb hc m rnd, rfl, ?_,
    fun i hi => ByteReg.byte_store_of_le s.dst _ i hi, holds_store_ringBytes s.kc .msbFirst _⟩
  simp only [fFunction, mix, hi8_sum16, lo8_sum16, w16_toNat]
  exact ByteReg.holds_store s.dst _ (by decide)

end Sys2Proof.Machine
end

section
/-! The commands ROUND (R164 to R166, R174) and CIPHER (R160 to R170, R175, R176): their whole next state, and what it depends
on. -/

namespace Sys2Proof.Machine

/-- ROUND on written operands (R174): the round words go to DST and the cursor after the round to KC. -/
theorem exec_round_of_holds {s : State} {b c : Vector Byte 8} (hsrc : s.ctrl.srcOK = true) (hkc : s.ctrl.kcV = true)
    (hdst : s.ctrl.dstV = true) (hb : Holds s.src 0 b) (hc : Holds s.kc 0 c) (m : Mode) (rnd : BitVec 4) :
    let r := roundStep .msbFirst s.sbox m rnd.toNat (wordsOf b) (ringOf .msbFirst c)
    exec (.round m rnd) s = .next (((s.storeCursor r.2).storeDst (bytesOf r.1).toList).setStatus .ok) :=
  execRound_eq_next.2 (.inr (.inr (.inr ⟨hsrc, hkc, hdst, b, hb, _, readCursor_eq_ok.2 ⟨c, hc, rfl⟩, _, rfl, rfl⟩)))

/-- The bytes of a round's result: its new half, then the bytes of the old one. -/
theorem bytesOf_swapped (n0 n1 : Word16) (b : Vector Byte 8) :
    bytesOf ⟨n0, n1, (wordsOf b).w0, (wordsOf b).w1⟩ = #v[hi8 n0, lo8 n0, hi8 n1, lo8 n1, b[0], b[1], b[2], b[3]] := by
  simp only [bytesOf, wordsOf, hi8_w16, lo8_w16]

/-- Settles O34: the checks pass, and in either mode the bytes stored are those of the new half and of the old one. -/
theorem roundComputesNewHalf : Obligations.RoundComputesNewHalf := by
  intro s m rnd b c hsrcV hsrcLen hkc hdst hb hc r0 r1 r2 r3 f n0 n1
  -- The rotations of the statement are the model's `rotl16` and `rotr16` by definition.
  have hwords : (roundStep .msbFirst s.sbox m rnd.toNat (wordsOf b) (ringOf .msbFirst c)).1 =
      ⟨n0, n1, (wordsOf b).w0, (wordsOf b).w1⟩ := by
    cases m with
    | encrypt => rfl
    | decrypt => rfl
  refine ⟨_, exec_round_of_holds (Ctrl.srcOK_iff.2 ⟨hsrcV, hsrcLen⟩) hkc hdst hb hc m rnd, rfl, ?_,
    holds_store_ringBytes s.kc .msbFirst _⟩
  rw [hwords, bytesOf_swapped]
  exact ByteReg.holds_store s.dst _ (by decide)

/-- CIPHER on written operands (R175): the cipher of SRC under KEY goes to DST. -/
theorem exec_cipher_of_holds {s : State} {p k : Vector Byte 8} (hsrc : s.ctrl.srcOK = true) (hkey : s.ctrl.keyOK = true)
    (hdst : s.ctrl.dstV = true) (hp : Holds s.src 0 p) (hk : Holds s.key 0 k) (m : Mode) :
    exec (.cipher m) s =
      .next ((s.discardEngine.storeDst (cipher .msbFirst s.sbox m p k).toList).setStatus .ok) :=
  execCipher_eq_next.2 (.inr (.inr (.inr ⟨hsrc, hkey, hdst, p, hp, k, hk, rfl⟩)))

/-- Settles O35: the checks pass, and the eight bytes of the cipher are stored. -/
theorem cipherWritesWhitenedRounds : Obligations.CipherWritesWhitenedRounds := by
  intro s m p k hsrcV hsrcLen hkeyV hkeyLen hdst hp hk k0 k1 k2 k3 start r y0 y1 y2 y3
  exact ⟨_, exec_cipher_of_holds (Ctrl.srcOK_iff.2 ⟨hsrcV, hsrcLen⟩) (Ctrl.keyOK_iff.2 ⟨hkeyV, hkeyLen⟩) hdst hp hk m, rfl,
    ByteReg.holds_store s.dst _ (by decide)⟩

/-- Settles O46: the same check fails in both states, or the same block is enciphered and covers DST. -/
theorem cipherResultsAreIndependent : Obligations.CipherResultsAreIndependent := by
  intro s s' t m hsbox hsrc hkey hsrcV hsrcLen hkeyV hkeyLen hdstV h
  have hsrcOK : s.ctrl.srcOK = s'.ctrl.srcOK := by rw [Ctrl.srcOK, Ctrl.srcOK, hsrcV, hsrcLen]
  have hkeyOK : s.ctrl.keyOK = s'.ctrl.keyOK := by rw [Ctrl.keyOK, Ctrl.keyOK, hkeyV, hkeyLen]
  have hdstOK : s.ctrl.dstOK = s'.ctrl.dstOK := hdstV.symm
  have hcases := execCipher_eq_next.1 h
  rw [hsrcOK, hkeyOK, hdstOK, ← hsrc, ← hkey, ← hsbox] at hcases
  obtain ⟨hbad, rfl⟩ | ⟨hs, hbad, rfl⟩ | ⟨hs, hk, hbad, rfl⟩ | ⟨hs, hk, hd, p, hp, k, hkey', rfl⟩ := hcases
  · exact ⟨_, execCipher_eq_next.2 (.inl ⟨hbad, rfl⟩), rfl, rfl, rfl, nofun⟩
  · exact ⟨_, execCipher_eq_next.2 (.inr (.inl ⟨hs, hbad, rfl⟩)), rfl, rfl, rfl, nofun⟩
  · exact ⟨_, execCipher_eq_next.2 (.inr (.inr (.inl ⟨hs, hk, hbad, rfl⟩))), rfl, rfl, rfl, nofun⟩
  · exact ⟨_, exec_cipher_of_holds hs hk hd hp hkey' m, rfl, rfl, rfl, fun _ =>
      (s'.dst.store_all _).trans (s.dst.store_all _).symm⟩

end Sys2Proof.Machine
end

section
/-! The round loop of CIPHER (R167, R172): its rounds one by one, where they leave the cursor, and how decryption runs through
the same states in reverse (R171). -/

namespace Sys2Proof.Machine

variable (o : RingOrder) (table : Vector Byte 256) (m : Mode) (e : Engine)

/-! ### The loop, round by round -/

/-- The engine after the rounds 0, ..., n - 1. -/
def cipherTrace (n : Nat) : Engine := (List.range n).foldl (cipherRound o table m) e

theorem cipherTrace_succ (n : Nat) :
    cipherTrace o table m e (n + 1) = cipherRound o table m (cipherTrace o table m e n) n := by
  rw [cipherTrace, List.range_succ, List.foldl_append]
  rfl

theorem cipherRounds_eq_cipherTrace : cipherRounds o table m e = cipherTrace o table m e 16 := rfl

theorem cipherTrace_wk (n : Nat) : (cipherTrace o table m e n).wk = e.wk := by
  induction n with
  | zero => rfl
  | succ n ih =>
    rw [cipherTrace_succ, ← ih]
    rfl

/-! ### The cursor -/

/-- The one-bit rotation that a draw makes (R112, R113). -/
def cursorTurn : Mode → Ring → Ring
  | .encrypt => rotl64
  | .decrypt => rotr64

theorem roundStep_cursor (round : Nat) (r : Words4) (v : Ring) :
    (roundStep o table m round r v).2 = (cursorTurn m)^[12] v := by
  cases m with
  | encrypt => exact congrArg Prod.snd (subkeysAreDrawnInOrder o _ v).1
  | decrypt => exact congrArg Prod.snd (subkeysAreDrawnInOrder o _ v).2

theorem cursorTurn_iterate_turns (k : Nat) (v : Ring) : (cursorTurn m)^[64 * k] v = v := by
  cases m with
  | encrypt => exact rotl64_iterate_turns v k
  | decrypt => exact rotr64_iterate_turns v k

theorem cipherTrace_icur (n : Nat) : (cipherTrace o table m e n).icur = (cursorTurn m)^[12 * n] e.icur := by
  induction n with
  | zero => rfl
  | succ n ih =>
    rw [cipherTrace_succ, show 12 * (n + 1) = 12 + 12 * n by omega, Function.iterate_add_apply, ← ih]
    exact roundStep_cursor o table m n (cipherTrace o table m e n).rwd _

/-- Settles O42: the sequence is that of the engine's round words and cursor, round by round. -/
theorem cipherRunsSixteenRounds : Obligations.CipherRunsSixteenRounds := by
  intro o table m e
  refine ⟨fun n => ((cipherTrace o table m e n).rwd, (cipherTrace o table m e n).icur), rfl, ?_, ?_, ?_⟩
  · intro round _
    simp only [cipherTrace_succ]
    rfl
  · intro n _
    cases m with
    | encrypt => exact cipherTrace_icur o table .encrypt e n
    | decrypt => exact cipherTrace_icur o table .decrypt e n
  · rw [cipherRounds_eq_cipherTrace, ← cipherTrace_wk o table m e 15, cipherTrace_succ]
    rfl

/-- Settles O44: 192 draws are three turns of the ring. -/
theorem cipherReturnsItsCursor : Obligations.CipherReturnsItsCursor := fun o table m e =>
  (cipherTrace_icur o table m e 16).trans (cursorTurn_iterate_turns m 3 e.icur)

/-! ### Decryption mirrors encryption, and encryption decryption -/

/-- The mode that undoes a mode. -/
def inverseMode : Mode → Mode
  | .encrypt => .decrypt
  | .decrypt => .encrypt

theorem kround_inverseMode {round : Nat} (h : round ≤ 15) : kround (15 - round) (inverseMode m) = kround round m := by
  cases m with
  | encrypt => exact Nat.sub_sub_self h
  | decrypt => rfl

theorem drawSubkeys_inverseMode (kr : Nat) (v : Ring) :
    drawSubkeys o kr (drawSubkeys o kr v m).2 (inverseMode m) = ((drawSubkeys o kr v m).1, v) := by
  cases m with
  | encrypt => exact (decryptDrawsMirrorEncryptDraws o kr v).1
  | decrypt => exact (decryptDrawsMirrorEncryptDraws o kr v).2

/-- R165 undoes R164 and R164 undoes R165, where F gives the same words. -/
theorem combineRound_inverseMode (r : Words4) (f0 f1 : Word16) :
    combineRound (unswap (combineRound r f0 f1 m)) f0 f1 (inverseMode m) = unswap r := by
  cases m with
  | encrypt => simp [combineRound, unswap, inverseMode]
  | decrypt => simp [combineRound, unswap, inverseMode]

/-- R171: a round of the other mode, with the mirrored index and swapped halves, undoes a round and its twelve draws. -/
theorem roundStep_inverseMode {round : Nat} (h : round ≤ 15) (r : Words4) (v : Ring) :
    roundStep o table (inverseMode m) (15 - round) (unswap (roundStep o table m round r v).1)
      (roundStep o table m round r v).2 = (unswap r, v) := by
  have hwords : (unswap (roundStep o table m round r v).1).w0 = r.w0 ∧
      (unswap (roundStep o table m round r v).1).w1 = r.w1 := by
    cases m with
    | encrypt => exact ⟨rfl, rfl⟩
    | decrypt => exact ⟨rfl, rfl⟩
  have hf : fFunction o table r.w0 r.w1 (15 - round) (inverseMode m) (roundStep o table m round r v).2 =
      ((fFunction o table r.w0 r.w1 round m v).1, v) := by
    simp only [fFunction, roundStep, kround_inverseMode m h, drawSubkeys_inverseMode]
  rw [roundStep, hwords.1, hwords.2, hf]
  exact congrArg (·, v) (combineRound_inverseMode m r _ _)

/-- R172 (b): rounds of the other mode that start where the sixteen rounds ended, halves swapped, go back through their
states. -/
theorem cipherTrace_inverseMode {e' : Engine} (hrwd : e'.rwd = unswap (cipherTrace o table m e 16).rwd)
    (hicur : e'.icur = (cipherTrace o table m e 16).icur) {n : Nat} (hn : n ≤ 16) :
    (cipherTrace o table (inverseMode m) e' n).rwd = unswap (cipherTrace o table m e (16 - n)).rwd ∧
    (cipherTrace o table (inverseMode m) e' n).icur = (cipherTrace o table m e (16 - n)).icur := by
  induction n with
  | zero => exact ⟨hrwd, hicur⟩
  | succ n ih =>
    obtain ⟨hr, hv⟩ := ih (by omega)
    have hmirror := roundStep_inverseMode o table m (round := 15 - n) (by omega)
      (cipherTrace o table m e (15 - n)).rwd (cipherTrace o table m e (15 - n)).icur
    rw [show 15 - (15 - n) = n by omega] at hmirror
    rw [show 16 - n = 15 - n + 1 by omega, cipherTrace_succ] at hr hv
    rw [cipherTrace_succ, cipherRound, hr, hv, show 16 - (n + 1) = 15 - n by omega]
    exact ⟨congrArg Prod.fst hmirror, congrArg Prod.snd hmirror⟩

/-! ### The whole cipher -/

theorem xorWords_xorWords (a b : Words4) : xorWords (xorWords a b) b = a := by
  simp [xorWords]

theorem bytesOf_wordsOf (b : Vector Byte 8) : bytesOf (wordsOf b) = b := by
  ext i hi : 1
  interval_cases i <;> simp [bytesOf, wordsOf]

variable (p k : Vector Byte 8)

/-- The input whitening of a cipher's output takes the output whitening off again. -/
theorem cipherStart_cipher_rwd : (cipherStart o (cipher o table m p k) k).rwd =
    unswap (cipherTrace o table m (cipherStart o p k) 16).rwd := by
  have hwk : (cipherTrace o table m (cipherStart o p k) 16).wk = wordsOf k := cipherTrace_wk o table m _ 16
  rw [cipherStart, cipher, cipherFinish, cipherRounds_eq_cipherTrace, hwk, wordsOf_bytesOf, xorWords_xorWords]

/-- R172 (b) for a whole cipher in either mode. -/
theorem cipherTrace_of_cipher {n : Nat} (hn : n ≤ 16) :
    (cipherTrace o table (inverseMode m) (cipherStart o (cipher o table m p k) k) n).rwd =
      unswap (cipherTrace o table m (cipherStart o p k) (16 - n)).rwd :=
  (cipherTrace_inverseMode o table m _ (cipherStart_cipher_rwd o table m p k)
    (cipherReturnsItsCursor o table m (cipherStart o p k)).symm hn).1

/-- R171: the other mode undoes the cipher. -/
theorem cipher_cipher : cipher o table (inverseMode m) (cipher o table m p k) k = p := by
  have hlast : (cipherTrace o table (inverseMode m) (cipherStart o (cipher o table m p k) k) 16).rwd =
      unswap (xorWords (wordsOf p) (wordsOf k)) := cipherTrace_of_cipher o table m p k (Nat.le_refl 16)
  have hwk : (cipherTrace o table (inverseMode m) (cipherStart o (cipher o table m p k) k) 16).wk = wordsOf k :=
    cipherTrace_wk o table _ _ 16
  rw [cipher, cipherFinish, cipherRounds_eq_cipherTrace, hlast, hwk]
  exact (congrArg bytesOf (xorWords_xorWords _ _)).trans (bytesOf_wordsOf p)

/-- Settles O43: each mode undoes the other. -/
theorem cipherRoundTrip : Obligations.CipherRoundTrip := fun o table p k =>
  ⟨cipher_cipher o table .encrypt p k, cipher_cipher o table .decrypt p k⟩

/-- Settles O45: the trace of the ciphertext is the mirrored trace of the block. -/
theorem decryptionTraceMirrorsEncryption : Obligations.DecryptionTraceMirrorsEncryption := fun o table p k _ hn =>
  cipherTrace_of_cipher o table .encrypt p k hn

end Sys2Proof.Machine
end

section
/-! The digits of hex text (R190) and how HEXDEC's scan ends (R196). -/

namespace Sys2Proof.Machine

/-! ### Digits -/

theorem hexval_eq_some_iff {c : Byte} {d : BitVec 4} : hexval c = some d ↔ IsDigit c d.toNat := by
  have hvalue {x : Nat} (hx : x < 16) : some (BitVec.ofNat 4 x) = some d ↔ d.toNat = x := by
    rw [Option.some_inj, BitVec.toNat_eq, BitVec.toNat_ofNat, Nat.mod_eq_of_lt hx, eq_comm]
  simp only [hexval, IsDigit]
  split_ifs
  · rw [hvalue] <;> omega
  · rw [hvalue] <;> omega
  · rw [hvalue] <;> omega
  · rw [false_iff]
    omega

theorem hexval_eq_none_of_no_digit {c : Byte} (h : ¬ ∃ v, IsDigit c v) : hexval c = none :=
  Option.eq_none_iff_forall_ne_some.2 fun d hd => h ⟨d.toNat, hexval_eq_some_iff.1 hd⟩

theorem IsDigit.lt {c : Byte} {v : Nat} (h : IsDigit c v) : v < 16 := by
  simp only [IsDigit] at h
  omega

theorem hexval_of_isDigit {c : Byte} {v : Nat} (h : IsDigit c v) : hexval c = some (BitVec.ofNat 4 v) := by
  rw [hexval_eq_some_iff, BitVec.toNat_ofNat, Nat.mod_eq_of_lt h.lt]
  exact h

/-! ### The scan -/

/-- The result of a whole scan, from the digits `ds` of its first part and the result of the rest. -/
def ScanResult.after (ds : List (BitVec 4)) : ScanResult → ScanResult
  | .digits rest => .digits (ds ++ rest)
  | .badChar => .badChar
  | .unwritten p => .unwritten p

/-- Position `p` of the text holds a written hex digit of value `d`. -/
def DigitAt (txt : ByteReg 16) (textLength p : Nat) (d : BitVec 4) : Prop :=
  p < textLength ∧ ∃ c, txt.byte p = some c ∧ hexval c = some d

section
variable {txt : ByteReg 16} {textLength count position : Nat}

theorem scanDigits_of_end (h : textLength ≤ position) : scanDigits txt textLength (count + 1) position = .badChar := by
  rw [scanDigits, if_pos h]

theorem scanDigits_of_unwritten (h : position < textLength) (hbyte : txt.byte position = none) :
    scanDigits txt textLength (count + 1) position = .unwritten position := by
  rw [scanDigits, if_neg h.not_ge, hbyte]

theorem scanDigits_of_no_digit {c : Byte} (h : position < textLength) (hbyte : txt.byte position = some c)
    (hc : hexval c = none) : scanDigits txt textLength (count + 1) position = .badChar := by
  simp only [scanDigits, if_neg h.not_ge, hbyte, hc]

theorem scanDigits_of_digitAt {d : BitVec 4} (h : DigitAt txt textLength position d) :
    scanDigits txt textLength (count + 1) position = (scanDigits txt textLength count (position + 1)).after [d] := by
  obtain ⟨hlt, c, hbyte, hc⟩ := h
  simp only [scanDigits, if_neg hlt.not_ge, hbyte, hc]
  cases scanDigits txt textLength count (position + 1) <;> rfl

end

theorem ScanResult.after_after (ds ds' : List (BitVec 4)) (r : ScanResult) : (r.after ds').after ds = r.after (ds ++ ds') := by
  cases r <;> simp [ScanResult.after]

/-- A scan passes over `k` digits and goes on behind them. -/
theorem scanDigits_add {txt : ByteReg 16} {textLength k position : Nat} (count : Nat) {d : Nat → BitVec 4}
    (h : ∀ p, position ≤ p → p < position + k → DigitAt txt textLength p (d p)) :
    scanDigits txt textLength (k + count) position =
      (scanDigits txt textLength count (position + k)).after ((List.range' position k).map d) := by
  induction k generalizing position with
  | zero =>
    rw [Nat.zero_add]
    cases scanDigits txt textLength count position <;> rfl
  | succ k ih =>
    have hrest := ih (position := position + 1) fun p hle hlt => h p (by omega) (by omega)
    rw [Nat.add_right_comm k 1 count, scanDigits_of_digitAt (h position le_rfl (by omega)), hrest,
      ScanResult.after_after, Nat.add_right_comm position 1 k]
    rfl

/-- A scan of digits alone yields them all. -/
theorem scanDigits_of_digits {txt : ByteReg 16} {textLength count position : Nat} {d : Nat → BitVec 4}
    (h : ∀ p, position ≤ p → p < position + count → DigitAt txt textLength p (d p)) :
    scanDigits txt textLength count position = .digits ((List.range' position count).map d) :=
  (scanDigits_add 0 h).trans (congrArg ScanResult.digits (List.append_nil _))

end Sys2Proof.Machine
end

section
/-! The command HEXDEC (R191, R192, R196): how it ends, by how its scan ends. -/

namespace Sys2Proof.Machine

section
variable {s : State} {n : BitVec 4} (hlen : 1 ≤ n.toNat ∧ n.toNat ≤ 8) (hbuf : s.ctrl.txtV = true ∧ s.ctrl.dstV = true)
include hlen hbuf

theorem exec_hexdec_of_scan_badChar (h : scanDigits s.txt s.ctrl.textLength (2 * n.toNat) 0 = .badChar) :
    exec (.hexdec n) s = .next (s.setStatus .badChar) :=
  execHexdec_eq_next.2 (.inr (.inr ⟨legalLength_iff.2 hlen, Bool.and_eq_true_iff.2 hbuf, .inl ⟨h, rfl⟩⟩))

theorem exec_hexdec_of_scan_digits {ds : List (BitVec 4)}
    (h : scanDigits s.txt s.ctrl.textLength (2 * n.toNat) 0 = .digits ds) :
    exec (.hexdec n) s = .next ((s.storeDst (pairDigits ds)).setStatus .ok) :=
  execHexdec_eq_next.2 (.inr (.inr ⟨legalLength_iff.2 hlen, Bool.and_eq_true_iff.2 hbuf, .inr ⟨ds, h, rfl⟩⟩))

theorem exec_hexdec_of_scan_unwritten {p : Nat}
    (h : scanDigits s.txt s.ctrl.textLength (2 * n.toNat) 0 = .unwritten p) :
    exec (.hexdec n) s = .fault (.unwrittenRead .txt p) := by
  rw [exec, execHexdec, guarded_of_passed
    (by simp [legalLength_iff, hlen, Ctrl.txtPresent, Ctrl.dstOK, hbuf]), h]

end

/-- Settles O21: the scan passes over the digits before `c`, and ends at `c` by the first test of R196 that fails there. -/
theorem hexdecScansInOrder : Obligations.HexdecScansInOrder := by
  intro s n c h1 h8 htxt hdst hc hbefore
  have hdigits : ∀ p < c, ∃ d, DigitAt s.txt s.ctrl.textLength p d := by
    intro p hp
    obtain ⟨hlt, ch, v, hbyte, hdigit⟩ := hbefore p hp
    exact ⟨_, hlt, ch, hbyte, hexval_of_isDigit hdigit⟩
  choose! d hd using hdigits
  obtain ⟨count, hcount⟩ : ∃ count, 2 * n.toNat = c + (count + 1) := ⟨2 * n.toNat - c - 1, by omega⟩
  have hscan := scanDigits_add (count + 1) (d := d) (position := 0) (k := c) fun p _ hp => hd p (by omega)
  rw [← hcount, Nat.zero_add] at hscan
  exact ⟨fun hend => exec_hexdec_of_scan_badChar ⟨h1, h8⟩ ⟨htxt, hdst⟩
      (hscan.trans (congrArg _ (scanDigits_of_end hend))),
    fun hlt hbyte => exec_hexdec_of_scan_unwritten ⟨h1, h8⟩ ⟨htxt, hdst⟩
      (hscan.trans (congrArg _ (scanDigits_of_unwritten hlt hbyte))),
    fun ch hlt hbyte hno => exec_hexdec_of_scan_badChar ⟨h1, h8⟩ ⟨htxt, hdst⟩
      (hscan.trans (congrArg _ (scanDigits_of_no_digit hlt hbyte (hexval_eq_none_of_no_digit hno))))⟩

/-! ### The bytes stored -/

/-- A stored byte, by its place in the list. -/
theorem ByteReg.byte_store_of_lt {n : Nat} (v : ByteReg n) {bs : List Byte} {i : Nat} (h : i < bs.length) (hi : i < n) :
    (v.store 0 bs).byte i = bs[i]? := by
  rw [ByteReg.byte_store, if_pos ⟨by omega, by omega, hi⟩, Nat.sub_zero]

/-- The digits of positions `2i` on pair up into the bytes `i` on (R191). -/
theorem pairDigits_map_range' (d : Nat → BitVec 4) (i n : Nat) :
    pairDigits ((List.range' (2 * i) (2 * n)).map d) = (List.range' i n).map fun j => d (2 * j) ++ d (2 * j + 1) := by
  induction n generalizing i with
  | zero => rfl
  | succ n ih => exact congrArg (_ :: ·) (ih (i + 1))

theorem ofNat_append_ofNat {x y : Nat} (hy : y < 16) :
    BitVec.ofNat 4 x ++ BitVec.ofNat 4 y = BitVec.ofNat 8 (x * 16 + y) := by
  apply BitVec.eq_of_toNat_eq
  simp only [toNat_append_eq, BitVec.toNat_ofNat]
  omega

/-- Settles O36: the scan yields all 2n digits, and the bytes stored are their pairs. -/
theorem hexdecStoresDigitPairs : Obligations.HexdecStoresDigitPairs := by
  intro s n v h1 h8 htxt hdst hend hdigits
  have hlt : ∀ c < 2 * n.toNat, v c < 16 := by
    intro c hc
    obtain ⟨ch, -, hdigit⟩ := hdigits c hc
    exact hdigit.lt
  have hscan : scanDigits s.txt s.ctrl.textLength (2 * n.toNat) 0 =
      .digits ((List.range' (2 * 0) (2 * n.toNat)).map fun c => BitVec.ofNat 4 (v c)) := by
    refine scanDigits_of_digits fun c _ hc => ?_
    obtain ⟨ch, hbyte, hdigit⟩ := hdigits c (by omega)
    exact ⟨lt_of_lt_of_le (by omega) hend, ch, hbyte, hexval_of_isDigit hdigit⟩
  have hexec := exec_hexdec_of_scan_digits ⟨h1, h8⟩ ⟨htxt, hdst⟩ hscan
  rw [pairDigits_map_range'] at hexec
  refine ⟨_, hexec, rfl, fun j hj => ?_, fun j hj => s.dst.byte_store_of_le _ j (by simpa using hj)⟩
  rw [← ofNat_append_ofNat (hlt _ (by omega))]
  refine (s.dst.byte_store_of_lt (by simpa using hj) (by omega)).trans ?_
  simp [hj]

end Sys2Proof.Machine
end

section
/-! The command HEXENC (R193, R197), and the round trip (R195). -/

namespace Sys2Proof.Machine

/-- `HEXU[v]` of R190 on numbers. -/
def upperDigit (v : Nat) : Byte := BitVec.ofNat 8 (if v ≤ 9 then 0x30 + v else 0x41 + (v - 10))

theorem hexu_eq_upperDigit (v : BitVec 4) : hexu v = upperDigit v.toNat := (apply_ite (BitVec.ofNat 8) _ _ _).symm

theorem hexu_highNibble (b : Byte) : hexu (b.extractLsb' 4 4) = upperDigit (b.toNat / 16) := by
  rw [hexu_eq_upperDigit, toNat_field, Nat.mod_eq_of_lt (Nat.div_lt_of_lt_mul (n := 2 ^ 4) b.isLt)]
  rfl

theorem hexu_lowNibble (b : Byte) : hexu (b.extractLsb' 0 4) = upperDigit (b.toNat % 16) := by
  rw [hexu_eq_upperDigit, toNat_field, pow_zero, Nat.div_one]
  rfl

theorem isDigit_upperDigit : ∀ v < 16, IsDigit (upperDigit v) v := by decide

/-- The two digits of byte `j` stand at `2j` and `2j + 1` of the text (R193). -/
theorem getElem?_hexText (bs : List Byte) (j : Nat) :
    (hexText bs)[2 * j]? = bs[j]?.map (fun b => upperDigit (b.toNat / 16)) ∧
    (hexText bs)[2 * j + 1]? = bs[j]?.map (fun b => upperDigit (b.toNat % 16)) := by
  induction bs generalizing j with
  | nil => simp [hexText]
  | cons b bs ih =>
    cases j with
    | zero => simp [hexText, hexu_highNibble, hexu_lowNibble]
    | succ j => simpa [hexText, Nat.mul_succ] using ih j

/-- HEXENC on written bytes (R197): their text goes to TXT, and its length to TXT_LEN. -/
theorem exec_hexenc_of_holds {s : State} {n : BitVec 4} {bs : Vector Byte n.toNat} (hlen : 1 ≤ n.toNat ∧ n.toNat ≤ 8)
    (hbuf : s.ctrl.srcV = true ∧ s.ctrl.txtV = true) (hbs : Holds s.src 0 bs) :
    exec (.hexenc n) s = .next (((s.setTxt (s.txt.store 0 (hexText bs.toList))).setCtrl
      { s.ctrl with txtLen := BitVec.ofNat 5 (2 * n.toNat) }).setStatus .ok) :=
  execHexenc_eq_next.2 (.inr (.inr ⟨legalLength_iff.2 hlen, Bool.and_eq_true_iff.2 hbuf, bs, hbs, rfl⟩))

/-- Settles O37: the checks pass, and the text stored holds the two digits of each byte. -/
theorem hexencWritesUppercaseDigits : Obligations.HexencWritesUppercaseDigits := by
  intro s n b h1 h8 hsrc htxt hb digit
  obtain ⟨bs, hbs, hget⟩ : ∃ bs : Vector Byte n.toNat, Holds s.src 0 bs ∧ ∀ j < n.toNat, bs.toList[j]? = some (b j) :=
    ⟨Vector.ofFn fun i => b i, fun i => by simp [hb], fun j hj => by simp [hj]⟩
  have hlen : (hexText bs.toList).length = 2 * n.toNat := by rw [length_hexText, Vector.length_toList]
  refine ⟨_, exec_hexenc_of_holds ⟨h1, h8⟩ ⟨hsrc, htxt⟩ hbs, rfl, fun j hj => ?_,
    fun i hi => s.txt.byte_store_of_le _ i (by rwa [hlen])⟩
  obtain ⟨hhigh, hlow⟩ := getElem?_hexText bs.toList j
  rw [hget j hj] at hhigh hlow
  exact ⟨(s.txt.byte_store_of_lt (by omega) (by omega)).trans hhigh,
    (s.txt.byte_store_of_lt (by omega) (by omega)).trans hlow⟩

/-- The values of the digits of the bytes `b`: of each, the high nibble first. -/
def nibble (b : Nat → Byte) (c : Nat) : Nat :=
  if c % 2 = 0 then (b (c / 2)).toNat / 16 else (b (c / 2)).toNat % 16

@[simp] theorem nibble_even (b : Nat → Byte) (j : Nat) : nibble b (2 * j) = (b j).toNat / 16 := by
  simp [nibble]

@[simp] theorem nibble_odd (b : Nat → Byte) (j : Nat) : nibble b (2 * j + 1) = (b j).toNat % 16 := by
  simp [nibble, Nat.add_mod, Nat.add_div]

/-- Settles O47: the text that HEXENC leaves (O37) is the digits of the nibbles, which HEXDEC pairs up again (O36). -/
theorem hexRoundTrip : Obligations.HexRoundTrip := by
  intro s n b h1 h8 hsrc htxt hdst hb
  obtain ⟨t, henc, hframe, hdigits, -⟩ := hexencWritesUppercaseDigits s n b h1 h8 hsrc htxt hb
  have hctrl : t.ctrl = { s.ctrl with txtLen := BitVec.ofNat 5 (2 * n.toNat) } := congrArg State.ctrl hframe
  have hlen : 2 * n.toNat ≤ min t.ctrl.txtLen.toNat 16 := by
    rw [hctrl, BitVec.toNat_ofNat]
    omega
  have hnibbles : ∀ c < 2 * n.toNat, ∃ ch, t.txt.byte c = some ch ∧ IsDigit ch (nibble b c) := by
    intro c hc
    obtain ⟨j, rfl | rfl⟩ := c.even_or_odd'
    · refine ⟨_, (hdigits j (by omega)).1, ?_⟩
      rw [nibble_even]
      exact isDigit_upperDigit _ (Nat.div_lt_of_lt_mul (b j).isLt)
    · refine ⟨_, (hdigits j (by omega)).2, ?_⟩
      rw [nibble_odd]
      exact isDigit_upperDigit _ (Nat.mod_lt _ (by decide))
  obtain ⟨u, hdec, huframe, hpairs, -⟩ :=
    hexdecStoresDigitPairs t n (nibble b) h1 h8 (by rwa [hctrl]) (by rwa [hctrl]) hlen hnibbles
  refine ⟨t, u, henc, hdec, congrArg State.status huframe, fun j hj => ?_⟩
  rw [hpairs j hj, nibble_even, nibble_odd, Nat.div_add_mod', BitVec.ofNat_toNat, BitVec.setWidth_eq]

end Sys2Proof.Machine
end

section
/-! Errors (R211, R212, R213, R214) and the idle CORE (R227, R242). -/

namespace Sys2Proof.Machine

variable {s t : State} {w : Word32} {rest : List HostEvent}

/-- Settles O7: the case of `step_cases` in which an event reaches the port cannot arise. -/
theorem idleCoreHoldsItsState : Obligations.IdleCoreHoldsItsState := by
  intro s hidle
  obtain ⟨-, hstep⟩ | ⟨e, rest, hpending, -⟩ := step_cases s
  · exact hstep
  · cases hidle.symm.trans hpending

theorem CommandEffect.status_eq_ok {i : Instr} (h : CommandEffect i s t) : t.status = .ok := by
  cases i with
  | sbox | gfun | hexdec | cipher =>
    obtain ⟨_, -, rfl⟩ := h
    rfl
  | kcdraw | ffun | round =>
    obtain ⟨_, _, -, rfl⟩ := h
    rfl
  | kcload | hexenc =>
    obtain ⟨_, rfl⟩ := h
    rfl

theorem eq_setStatus_of_exec_error {i : Instr} (h : exec i s = .next t) (hstatus : t.status ≠ .ok) :
    t = s.setStatus t.status := by
  obtain ⟨_, -, rfl⟩ | heffect := exec_eq_next_cases h
  · rfl
  · exact absurd heffect.status_eq_ok hstatus

theorem eq_commandDone_of_issueCommand_error (h : issueCommand w s = .next t) (hstatus : t.status ≠ .ok) :
    t = commandDone w (s.setStatus t.status) := by
  obtain ⟨_, -, rfl⟩ | ⟨i, u, -, hexec, rfl⟩ := issueCommand_eq_next.1 h
  · rfl
  · exact congrArg (commandDone w) (eq_setStatus_of_exec_error hexec hstatus)

/-- Settles O19: the effect of a command that passes its checks ends with OK, so an error comes from a failing check, or from
a word that is no command. -/
theorem errorsWriteOnlyStatus : Obligations.ErrorsWriteOnlyStatus := by
  refine ⟨fun i s t => eq_setStatus_of_exec_error, fun s t w rest hpending h hstatus => ?_⟩
  have hcmd : step s = issueCommand w (s.setPending rest) := step_of_write hpending rfl
  exact eq_commandDone_of_issueCommand_error (hcmd.symm.trans h) hstatus

/-- Settles O20: in each command's list of what it can do, the case of the check that fails first. -/
theorem checksRunInOrder : Obligations.ChecksRunInOrder := by
  intro s m x r n
  simp only [← Ctrl.srcOK_iff, ← Ctrl.keyOK_iff, ← legalLength_iff, Bool.not_eq_true]
  refine ⟨fun hdst => ?sbox, fun hkey => ?kcload, fun hkc => ?kcdrawKey, fun hkc hdst => ?kcdrawDst,
    fun hsrc => ⟨?gfunSrc, ?ffunSrc, ?roundSrc, ?cipherSrc⟩, fun hsrc hdst => ?gfunDst,
    fun hsrc hkc => ⟨?ffunKey, ?roundKey⟩, fun hsrc hkc hdst => ⟨?ffunDst, ?roundDst⟩,
    fun hsrc hkey => ?cipherKey, fun hsrc hkey hdst => ?cipherDst,
    fun hlen => ⟨?hexdecSize, ?hexencSize⟩, fun hlen hbuf => ?hexdecBuffer, fun hlen hbuf => ?hexencBuffer⟩
  case sbox => exact execSbox_eq_next.2 (.inl ⟨hdst, rfl⟩)
  case kcload => exact execKcload_eq_next.2 (.inl ⟨hkey, rfl⟩)
  case kcdrawKey => exact execKcdraw_eq_next.2 (.inl ⟨hkc, rfl⟩)
  case kcdrawDst => exact execKcdraw_eq_next.2 (.inr (.inl ⟨hkc, hdst, rfl⟩))
  case gfunSrc => exact execGfun_eq_next.2 (.inl ⟨hsrc, rfl⟩)
  case gfunDst => exact execGfun_eq_next.2 (.inr (.inl ⟨hsrc, hdst, rfl⟩))
  case ffunSrc => exact execFfun_eq_next.2 (.inl ⟨hsrc, rfl⟩)
  case ffunKey => exact execFfun_eq_next.2 (.inr (.inl ⟨hsrc, hkc, rfl⟩))
  case ffunDst => exact execFfun_eq_next.2 (.inr (.inr (.inl ⟨hsrc, hkc, hdst, rfl⟩)))
  case roundSrc => exact execRound_eq_next.2 (.inl ⟨hsrc, rfl⟩)
  case roundKey => exact execRound_eq_next.2 (.inr (.inl ⟨hsrc, hkc, rfl⟩))
  case roundDst => exact execRound_eq_next.2 (.inr (.inr (.inl ⟨hsrc, hkc, hdst, rfl⟩)))
  case cipherSrc => exact execCipher_eq_next.2 (.inl ⟨hsrc, rfl⟩)
  case cipherKey => exact execCipher_eq_next.2 (.inr (.inl ⟨hsrc, hkey, rfl⟩))
  case cipherDst => exact execCipher_eq_next.2 (.inr (.inr (.inl ⟨hsrc, hkey, hdst, rfl⟩)))
  case hexdecSize => exact execHexdec_eq_next.2 (.inl ⟨hlen, rfl⟩)
  case hexencSize => exact execHexenc_eq_next.2 (.inl ⟨hlen, rfl⟩)
  case hexdecBuffer => exact execHexdec_eq_next.2 (.inr (.inl ⟨hlen, Bool.and_eq_false_iff.2 hbuf, rfl⟩))
  case hexencBuffer => exact execHexenc_eq_next.2 (.inr (.inl ⟨hlen, Bool.and_eq_false_iff.2 hbuf, rfl⟩))

/-- Settles O24: no command is refused, and the byte at which one would fault (O22) is written. -/
theorem commandsCompleteOnWrittenRegisters : Obligations.CommandsCompleteOnWrittenRegisters := by
  intro i s hsrc hkey htxt hkc
  obtain ⟨hrefused, hfault⟩ := commandsFaultOnlyOnUnwrittenBytes i s
  cases hexec : exec i s with
  | next t => exact ⟨t, rfl⟩
  | refused r => exact absurd hexec (hrefused r)
  | fault f =>
    obtain ⟨reg, k, -, hreg, hk, hnone⟩ := hfault f hexec
    cases reg with
    | src => exact absurd hnone (hsrc k hk)
    | key => exact absurd hnone (hkey k hk)
    | dst => exact absurd rfl hreg
    | txt => exact absurd hnone (htxt k hk)
    | kc => exact absurd hnone (hkc k hk)

end Sys2Proof.Machine
end

section
/-! Every field of a command word reads back (R80 to R90). -/

namespace Sys2Proof

/-- Settles O1: each field of `commandWord` is what it was built from, the reserved ones 0, and the opcode names the command. -/
theorem decodeInvertsEncode : Obligations.DecodeInvertsEncode := decode_encode

end Sys2Proof
end

section
/-! Reset (R240, R241, R242): the values it leaves, where it falls, and what a command can do right after it. -/

namespace Sys2Proof.Machine

variable {s t : State} {w : Word32} {rest : List HostEvent}

/-! ### The values -/

theorem ByteReg.byte_replicate_none (n i : Nat) : ByteReg.byte (Vector.replicate n none) i = none := by
  by_cases h : i < n <;> simp [ByteReg.byte, h]

theorem dataByte_resetWith (table : Vector Byte 256) (r : DataReg) (i : Nat) : (State.resetWith table).dataByte r i = none := by
  cases r <;> exact ByteReg.byte_replicate_none _ i

/-- A reset leaves the bytes of power-on, whatever the table. -/
theorem dataByte_hardReset (s : State) (r : DataReg) (i : Nat) : s.hardReset.dataByte r i = none :=
  dataByte_resetWith s.sbox r i

theorem Ctrl.word_reset : Ctrl.reset.word = 0#32 := by decide

/-- Settles O26: the ROM holds the table it is reset with, and the registers are those of R240. -/
theorem resetValues : Obligations.ResetValues := ⟨rfl, rfl, Ctrl.word_reset, dataByte_resetWith Config.ftable⟩

/-- Settles O53: KC_V is 0 after reset. -/
theorem cursorLoadedAtReset : Obligations.CursorLoadedAtReset := nofun

/-! ### A reset event -/

theorem step_of_reset (h : s.pending = .reset :: rest) : step s = .next (s.setPending rest).hardReset := step_of_cons h

theorem step_of_resetDuring (h : s.pending = .resetDuring w :: rest) : step s = resetDuring w (s.setPending rest) :=
  step_of_cons h

/-- Settles O28: the reset event is one hard reset, and `resetDuring` puts one after the command or before it. -/
theorem resetTakesEffectBetweenCommands : Obligations.ResetTakesEffectBetweenCommands := by
  refine ⟨fun s rest hpending => ?_, fun s t w rest hpending hstep => ?_⟩
  · exact ⟨_, step_of_reset hpending, rfl, rfl, Ctrl.word_reset, dataByte_hardReset _, rfl, rfl⟩
  · have hduring : resetDuring w (s.setPending rest) = .next t := (step_of_resetDuring hpending).symm.trans hstep
    obtain ⟨-, hresetFirst⟩ | ⟨-, hcommandFirst⟩ := resetDuring_eq_next.1 hduring
    · exact .inr hresetFirst
    · exact .inl hcommandFirst

/-! ### A command right after reset -/

/-- While CTRL is 0 no operand check passes: each command ends at its first check, a codec command of legal size at its
second. -/
theorem exec_of_ctrl_reset (i : Instr) (h : s.ctrl = Ctrl.reset) :
    ∃ c ∈ [Code.badSourceBlock, .badKey, .badDestBlock, .badSize, .badBuffer], exec i s = .next (s.setStatus c) := by
  have hsrc : s.ctrl.srcOK = false := congrArg Ctrl.srcOK h
  have hkey : s.ctrl.keyOK = false := congrArg Ctrl.keyOK h
  have hdst : s.ctrl.dstOK = false := congrArg Ctrl.dstOK h
  have hkc : s.ctrl.kcOK = false := congrArg Ctrl.kcOK h
  have htxt : s.ctrl.txtPresent = false := congrArg Ctrl.txtPresent h
  cases i with
  | sbox => exact ⟨.badDestBlock, by decide, execSbox_eq_next.2 (.inl ⟨hdst, rfl⟩)⟩
  | kcload => exact ⟨.badKey, by decide, execKcload_eq_next.2 (.inl ⟨hkey, rfl⟩)⟩
  | kcdraw => exact ⟨.badKey, by decide, execKcdraw_eq_next.2 (.inl ⟨hkc, rfl⟩)⟩
  | gfun => exact ⟨.badSourceBlock, by decide, execGfun_eq_next.2 (.inl ⟨hsrc, rfl⟩)⟩
  | ffun => exact ⟨.badSourceBlock, by decide, execFfun_eq_next.2 (.inl ⟨hsrc, rfl⟩)⟩
  | round => exact ⟨.badSourceBlock, by decide, execRound_eq_next.2 (.inl ⟨hsrc, rfl⟩)⟩
  | cipher => exact ⟨.badSourceBlock, by decide, execCipher_eq_next.2 (.inl ⟨hsrc, rfl⟩)⟩
  | hexdec n =>
    cases hlen : legalLength n.toNat with
    | false => exact ⟨.badSize, by decide, execHexdec_eq_next.2 (.inl ⟨hlen, rfl⟩)⟩
    | true => exact ⟨.badBuffer, by decide, execHexdec_eq_next.2 (.inr (.inl ⟨hlen, by rw [htxt, Bool.false_and], rfl⟩))⟩
  | hexenc n =>
    cases hlen : legalLength n.toNat with
    | false => exact ⟨.badSize, by decide, execHexenc_eq_next.2 (.inl ⟨hlen, rfl⟩)⟩
    | true => exact ⟨.badBuffer, by decide, execHexenc_eq_next.2 (.inr (.inl ⟨hlen, by rw [htxt, Bool.and_false], rfl⟩))⟩

/-- Settles O27: CTRL is 0 after reset. -/
theorem everyCommandErrsAfterReset : Obligations.EveryCommandErrsAfterReset := fun i => exec_of_ctrl_reset i rfl

end Sys2Proof.Machine
end
